-- ==== Sys2Proof/Word.lean ====
section
/-!
DEFINITION. The word types of the engine and the few shapes built from them: bytes, 32-bit words, the 64-bit
counter word, the five-word chaining value, the five working variables of a round, and a 64-byte block.
Spec: 00_scope.md R6, R8; 10_state.md R11, R19; 20_memory.md R30.
-/

namespace Sys2Proof

/-- One byte of a stream, of the buffer or of a block (R8: values 0 to 255). -/
abbrev Byte := BitVec 8

/-- One data-path word (R6: 32 bits, unsigned; R72: all data-path words are of this type). -/
abbrev Word := BitVec 32

/-- The width of `COUNT` and of the padding's length field (R6, R7: 64 bits). -/
abbrev DWord := BitVec 64

/-- R11, the source's HashState: exactly five 32-bit words, `h[0]` the most significant word of a digest. The register
file `H`, the finalizer's local `T` and the constant `IV` all have this type. -/
abbrev HashState := Vector Word 5

/-- R19: the five working variables of the rounds. Scratch: no field of the machine's state has this type. -/
structure Working where
  a : Word
  b : Word
  c : Word
  d : Word
  e : Word
deriving DecidableEq, Repr

/-- R9, R30: a block is exactly 64 bytes, and its byte indices 0 to 63 are the block space. The length is kept
with the bytes, so the compression of a `Block` cannot raise InvalidBlockLength (R80, R84). -/
structure Block where
  bytes : List Byte
  size : bytes.length = 64
deriving DecidableEq, Repr

end Sys2Proof
end

