-- ==== Sys2Proof/Machine/Bytes.lean ====
section
/-!
DEFINITION. Byte sequences and byte order (00_scope.md R8; 20_memory.md R33, R34: every multi-byte quantity of the
engine is big-endian), and the two memory primitives of R8 over the block space (20_memory.md R30).
-/

namespace Sys2Proof.Machine

/-- R8 `from_be(s)`: the unsigned integer whose big-endian byte sequence is `s`; `from_be([]) = 0`. -/
def fromBE (bs : List Byte) : Nat := bs.foldl (fun n b => n * 256 + b.toNat) 0

/-- R8 `be32(w)`: `[w[31:24], w[23:16], w[15:8], w[7:0]]`. -/
def be32 (w : Word) : List Byte :=
  [w.extractLsb' 24 8, w.extractLsb' 16 8, w.extractLsb' 8 8, w.extractLsb' 0 8]

/-- R8 `be64(v)`: the 8-byte big-endian sequence of a 64-bit value. -/
def be64 (v : DWord) : List Byte :=
  [v.extractLsb' 56 8, v.extractLsb' 48 8, v.extractLsb' 40 8, v.extractLsb' 32 8,
   v.extractLsb' 24 8, v.extractLsb' 16 8, v.extractLsb' 8 8, v.extractLsb' 0 8]

/-- R46, R34: the two bytes of the header's 16-bit `LEN` field, high byte first. -/
def be16 (n : Nat) : List Byte := [BitVec.ofNat 8 (n / 256), BitVec.ofNat 8 n]

/-- R8 `zeros(n)`: `n` bytes of value 0. -/
def zeros (n : Nat) : List Byte := List.replicate n 0

/-- R8 `s[i:j]`: the bytes of indices `i` up to but excluding `j`. -/
def slice (bs : List Byte) (i j : Nat) : List Byte := (bs.drop i).take (j - i)

/-- R8 `MemRead(addr, n)` on the block space of R30: the big-endian value of the `n` bytes at index `addr`. -/
def memRead (blk : Block) (addr n : Nat) : Nat := fromBE (slice blk.bytes addr (addr + n))

/-- The `n`-byte big-endian form of `v`, the bytes `MemWrite` stores. -/
def beBytes : Nat → Nat → List Byte
  | 0, _ => []
  | n + 1, v => BitVec.ofNat 8 (v / 256 ^ n) :: beBytes n v

theorem beBytes_length (n v : Nat) : (beBytes n v).length = n := by
  induction n with
  | zero => rfl
  | succ n ih => simp [beBytes, ih]

/-- R8 `MemWrite(addr, n, v)`: the `n`-byte big-endian form of `v` stored at byte indices `addr` to `addr+n-1`
of the block space, whose indices end at 63 (R30), so an access past it cannot be written down. R8 and R30 define
the primitive and no command of the engine uses it. -/
def memWrite (blk : Block) (addr n v : Nat) (inside : addr + n ≤ 64) : Block :=
  { bytes := blk.bytes.take addr ++ beBytes n v ++ blk.bytes.drop (addr + n)
    size := by
      have := blk.size
      simp only [List.length_append, List.length_take, List.length_drop, beBytes_length]
      omega }

/-- R92's `len(B) >= 64` and `B[0:64]` together: the first 64 bytes of a sequence as a block, when it has them. -/
def frontBlock (bs : List Byte) : Option Block :=
  if h : 64 ≤ bs.length then some ⟨bs.take 64, by simp [h]⟩ else none

/-- The first `n` consecutive 64-byte slices of a sequence, as far as it has them. -/
def takeBlocks : Nat → List Byte → List Block
  | 0, _ => []
  | n + 1, bs =>
    match frontBlock bs with
    | none => []
    | some blk => blk :: takeBlocks n (bs.drop 64)

/-- R106: every whole 64-byte chunk of a sequence, `len div 64` of them, in order. -/
def chunks (bs : List Byte) : List Block := takeBlocks (bs.length / 64) bs

end Sys2Proof.Machine
end

