-- ==== Sys2Proof/Syntax.lean ====
section
/-!
DEFINITION. The commands: the eight opcodes and the eight command packets as an inductive type, one constructor
per row of spec/opcode_table.json. Spec: 30_encoding.md R45, R47, R55.
-/

namespace Sys2Proof

/-- R47: the eight values of the `OPC` field that select a command. -/
inductive Opcode where
  | init
  | update
  | digest
  | compress
  | ldstate
  | ldcount
  | rdstate
  | rdstatus
deriving DecidableEq, Repr

/-- R45, R47: a command packet that selects a command, with its payload bytes in stream order. The header's
`LEN` is the payload's length. A header selects its command by `OPC` and `RSV` alone (the match and mask of R47),
so every constructor carries a payload of any length: that the length is legal is checked by the command's own
rule (R49 step 3), which raises the row's error when it is not. -/
inductive Instr where
  | init (payload : List Byte)
  | update (payload : List Byte)
  | digest (payload : List Byte)
  | compress (payload : List Byte)
  | ldstate (payload : List Byte)
  | ldcount (payload : List Byte)
  | rdstate (payload : List Byte)
  | rdstatus (payload : List Byte)
deriving DecidableEq, Repr

/-- The payload of a command packet. -/
def Instr.payload : Instr → List Byte
  | .init p => p
  | .update p => p
  | .digest p => p
  | .compress p => p
  | .ldstate p => p
  | .ldcount p => p
  | .rdstate p => p
  | .rdstatus p => p

/-- The opcode of a command packet. -/
def Instr.opcode : Instr → Opcode
  | .init _ => .init
  | .update _ => .update
  | .digest _ => .digest
  | .compress _ => .compress
  | .ldstate _ => .ldstate
  | .ldcount _ => .ldcount
  | .rdstate _ => .rdstate
  | .rdstatus _ => .rdstatus

end Sys2Proof
end

