-- ==== Sys2Proof/WellFormed.lean ====
section
/-!
DEFINITION. Which command packets can be written down at all, and which have a legal length.
Spec: 30_encoding.md R46 (the 16-bit `LEN` field) and R47 (the column "legal LEN").
-/

namespace Sys2Proof

/-- R46: `LEN` is 16 bits, so a payload has at most 65535 bytes. Only such a packet has an encoding. -/
def Instr.fits (i : Instr) : Bool := decide (i.payload.length ≤ 65535)

/-- R47, the column "legal LEN". -/
def Opcode.legalLen : Opcode → Nat → Bool
  | .init, n => n == 0
  | .update, n => decide (n ≤ 65535)
  | .digest, n => n == 0
  | .compress, n => n == 64
  | .ldstate, n => n == 20
  | .ldcount, n => n == 8
  | .rdstate, n => n == 0
  | .rdstatus, n => n == 0

/-- R47: a command packet of the length its command requires. A packet that is not well formed but `fits` is
still a packet the engine receives and answers, with the error of its row (R49 step 3). -/
def Instr.wellFormed (i : Instr) : Bool := i.opcode.legalLen i.payload.length

end Sys2Proof
end

