-- ==== Sys2Proof/Decode.lean ====
section
/-!
DEFINITION. From the command stream's bytes to command packets and commands, and back: framing, decoding, the
encoder, the byte-serial parser of 10_state.md R21, and the host's test word. Spec: 30_encoding.md R45 to R49,
R52, R54, R55.
-/

namespace Sys2Proof

open Sys2Proof.Machine (fromBE be16)

/-- R45: one whole command packet: an opcode byte, a reserved byte and a payload. The length field `LEN` is the
payload's length. -/
structure Packet where
  opc : Byte
  rsv : Byte
  payload : List Byte
deriving DecidableEq, Repr

/-- R46: the payload's length fits the 16-bit `LEN` field. -/
def Packet.fits (p : Packet) : Bool := decide (p.payload.length ≤ 65535)

/-- R46: the packet's bytes on the stream: `OPC`, `RSV`, `LEN[15:8]`, `LEN[7:0]`, then the payload in order. -/
def Packet.bytes (p : Packet) : List Byte := p.opc :: p.rsv :: (be16 p.payload.length ++ p.payload)

/-- Why a byte sequence is no command. The first three say that no whole packet stands at its front; the last two
that a whole packet does, and is illegal (R52). -/
inductive DecodeError where
  /-- The sequence is empty: the stream is at a packet boundary and holds nothing. -/
  | noPacket
  /-- One to three bytes: the 4-byte header is not complete (R165). -/
  | incompleteHeader
  /-- Fewer than `LEN` bytes follow the header (R165). -/
  | incompletePayload
  /-- R49 step 1: `RSV` is not 0x00. -/
  | reservedByte
  /-- R49 step 2: `OPC` is 0x00 or 0x09 to 0xFF. -/
  | unassignedOpcode
deriving DecidableEq, Repr

/-- R46: the first packet of a stream and the bytes after it. Framing reads `LEN` alone, whatever `OPC` and `RSV`
are, and takes exactly `LEN` payload bytes. -/
def framePacket : List Byte → Except DecodeError (Packet × List Byte)
  | [] => .error .noPacket
  | opc :: rsv :: lenHi :: lenLo :: rest =>
    let len := fromBE [lenHi, lenLo]
    if len ≤ rest.length then .ok ({ opc := opc, rsv := rsv, payload := rest.take len }, rest.drop len)
    else .error .incompletePayload
  | _ => .error .incompleteHeader

/-- R47: the `OPC` value of each command. -/
def Opcode.code : Opcode → Byte
  | .init => 0x01
  | .update => 0x02
  | .digest => 0x03
  | .compress => 0x04
  | .ldstate => 0x05
  | .ldcount => 0x06
  | .rdstate => 0x07
  | .rdstatus => 0x08

/-- R47, R49 step 2: the command an `OPC` value selects. 0x00 and 0x09 to 0xFF select none. -/
def Opcode.ofByte (b : Byte) : Option Opcode :=
  match b.toNat with
  | 1 => some .init
  | 2 => some .update
  | 3 => some .digest
  | 4 => some .compress
  | 5 => some .ldstate
  | 6 => some .ldcount
  | 7 => some .rdstate
  | 8 => some .rdstatus
  | _ => none

/-- The command packet of an opcode with a given payload. -/
def Opcode.instr : Opcode → List Byte → Instr
  | .init, p => .init p
  | .update, p => .update p
  | .digest, p => .digest p
  | .compress, p => .compress p
  | .ldstate, p => .ldstate p
  | .ldcount, p => .ldcount p
  | .rdstate, p => .rdstate p
  | .rdstatus, p => .rdstatus p

/-- R49 steps 1 and 2, in that order: the reserved byte, then the opcode. Steps 3 and 4 (the length, the value of
LDCOUNT) are the first lines of each command's own rule. -/
def decodePacket (p : Packet) : Except DecodeError Instr :=
  if p.rsv = 0x00 then
    match Opcode.ofByte p.opc with
    | some op => .ok (op.instr p.payload)
    | none => .error .unassignedOpcode
  else .error .reservedByte

/-- The decoder, total on any bytes: the command at the front of a byte sequence and the bytes after its packet,
or the name of what is wrong. -/
def decode (bs : List Byte) : Except DecodeError (Instr × List Byte) :=
  match framePacket bs with
  | .error e => .error e
  | .ok (p, rest) =>
    match decodePacket p with
    | .error e => .error e
    | .ok i => .ok (i, rest)

/-! ## The encoder (R46, R47) -/

/-- The packet of a command: its opcode's `OPC`, `RSV = 0x00`, its payload. -/
def Instr.packet (i : Instr) : Packet := { opc := i.opcode.code, rsv := 0x00, payload := i.payload }

/-- R46: the bytes of a command packet on the command stream. -/
def encode (i : Instr) : List Byte := i.packet.bytes

/-- R46: the 32-bit header of a command packet, `OPC[31:24]`, `RSV[23:16]`, `LEN[15:0]`. -/
def Packet.header (p : Packet) : Word := p.opc ++ p.rsv ++ BitVec.ofNat 16 p.payload.length

/-- R47: the match value of a command's row. -/
def Opcode.matchWord : Opcode → Word
  | .init => 0x01000000
  | .update => 0x02000000
  | .digest => 0x03000000
  | .compress => 0x04000000
  | .ldstate => 0x05000000
  | .ldcount => 0x06000000
  | .rdstate => 0x07000000
  | .rdstatus => 0x08000000

/-- R47: the mask of every row, over `OPC` and `RSV`. -/
def headerMask : Word := 0xFFFF0000

/-! ## The byte-serial parser (R21) -/

/-- R21: what the command parser holds while a packet is arriving: the header fields received so far, and, once
the header is complete, the payload bytes received so far. Scratch (R22): no field of the machine's state; at a
packet boundary it holds nothing. -/
inductive Parser where
  /-- At a packet boundary, expecting byte 0 of a header. -/
  | boundary
  | gotOpc (opc : Byte)
  | gotRsv (opc rsv : Byte)
  | gotLenHi (opc rsv lenHi : Byte)
  /-- The header is complete and `LEN` is greater than the number of payload bytes received. -/
  | inPayload (opc rsv : Byte) (len : Nat) (got : List Byte)
deriving DecidableEq, Repr

/-- R21, R46: the parser takes one byte of the command stream. When the byte completes a packet, the packet comes
out and the parser is at a packet boundary. -/
def Parser.accept : Parser → Byte → Parser × Option Packet
  | .boundary, b => (.gotOpc b, none)
  | .gotOpc opc, b => (.gotRsv opc b, none)
  | .gotRsv opc rsv, b => (.gotLenHi opc rsv b, none)
  | .gotLenHi opc rsv lenHi, b =>
    let len := fromBE [lenHi, b]
    if len = 0 then (.boundary, some { opc := opc, rsv := rsv, payload := [] })
    else (.inPayload opc rsv len [], none)
  | .inPayload opc rsv len got, b =>
    let now := got ++ [b]
    if now.length < len then (.inPayload opc rsv len now, none)
    else (.boundary, some { opc := opc, rsv := rsv, payload := now })

/-- The parser over a sequence of bytes: where it stands after them, and the packets completed, in order. -/
def Parser.feed : Parser → List Byte → Parser × List Packet
  | q, [] => (q, [])
  | q, b :: bs =>
    match q.accept b with
    | (q', none) => q'.feed bs
    | (q', some p) => ((q'.feed bs).1, p :: (q'.feed bs).2)

/-! ## The host's test word -/

/-- The bytes of a command packet whose bits are `w`, numbered as spec/opcode_table.json numbers them: the 32-bit
header is the first word, `OPC` in its bits 31 to 24, sent most significant byte first (R46); payload byte `j`
is bits `32+8j` to `39+8j`. Every bit above `nbits` is 0, and the header's `LEN` says how many payload bytes
there are. -/
def tableBytes (nbits w : Nat) : List Byte :=
  let v := w % 2 ^ nbits
  [BitVec.ofNat 8 (v / 2 ^ 24), BitVec.ofNat 8 (v / 2 ^ 16), BitVec.ofNat 8 (v / 2 ^ 8), BitVec.ofNat 8 v]
    ++ (List.range (v % 2 ^ 16)).map fun j => BitVec.ofNat 8 (v / 2 ^ (32 + 8 * j))

/-- The command the decoder reads from the word `w` of `nbits` bits, as spec/opcode_table.json numbers bits. -/
def decodeTableWord (nbits w : Nat) : Option Instr :=
  match decode (tableBytes nbits w) with
  | .ok (i, _) => some i
  | .error _ => none

end Sys2Proof
end

