-- ==== Sys2Proof/Machine/Constants.lean ====
section
/-!
DEFINITION. The constants of the engine that no command can change (10_state.md R26): the initial chaining value.
The round constants stand with the round functions in Machine/WordArith.lean.
-/

namespace Sys2Proof.Machine

/-- R13: the initial value of `H`, written by reset and by INIT. The source does not print the five words; the spec
supplies them (its decision D27) and validates them by the digests the source prints. -/
def iv : HashState :=
  #v[0x67452301, 0xEFCDAB89, 0x98BADCFE, 0x10325476, 0xC3D2E1F0]

end Sys2Proof.Machine
end

