-- ==== Sys2Proof/Machine/State.lean ====
section
/-!
DEFINITION. The machine's state, its error kinds, the reasons a step can stop, and the state after reset.
Spec: 10_state.md R10 to R26; 60_exceptions.md R135; 70_reset_and_hazards.md R156.
-/

namespace Sys2Proof.Machine

/-- R135: the four error kinds. An error ends a command early and is reported to the host; it is a NEXT state of
the machine (R140), never a fault of the model. -/
inductive ErrorKind where
  | invalidBlockLength
  | invalidDigestEncoding
  | illegalCommand
  | invalidCount
deriving DecidableEq, Repr

/-- R10: one engine instance, with the two byte streams it is attached to.

The scratch items of R22 (the schedule `x`, the working variables, the finalizer's `T`, the padding staging area,
the round and block indices, the parser's fields) hold no value between commands and are local values of the
functions that use them, as R22 asks. There is no program counter (R17), no mode (R150), no interrupt state
(R147), no memory and no address space (R32). -/
structure State where
  /-- R11: the register file `H[0..4]`. -/
  h : HashState
  /-- R14: `BUF`, a byte sequence; `BUFLEN` is its length, 0 to 63 at rest (`State.bufLen`). -/
  buf : List Byte
  /-- R15: `COUNT`, the bytes already compressed, 64 bits, wrapping. -/
  count : DWord
  /-- R16: `ERR`, the code of the first error since reset, 0 when there was none. -/
  err : Byte
  /-- R45, interface (assumption log 1): the command stream, the bytes the host has sent and the engine has not
  consumed, oldest first. -/
  cmd : List Byte
  /-- R45, R50, interface (assumption log 1): the response stream, the bytes the engine has sent and the host has
  not read, oldest first. -/
  rsp : List Byte
deriving DecidableEq, Repr

/-- R14: `BUFLEN = len(BUF)`. The buffer and its occupancy are stored once, as the byte sequence. -/
def State.bufLen (s : State) : Nat := s.buf.length

/-- The reasons the machine stops with a fault: none. The engine does not lock up and has no halting error (R142,
R172); every error of R135 is a next state. -/
inductive Fault
deriving DecidableEq, Repr

/-- The reasons a step has no meaning. -/
inductive Refusal where
  /-- Raised by `exec`'s arm of an instruction that has no meaning yet; no arm raises it now. Safe: the model says
  nothing of what follows. -/
  | notModelled (mnemonic : String)
  /-- Raised by `step` when the command stream holds a part of a packet and no whole one (R165; 93 entry U2,
  treatment "refuse": a command is a whole packet). Safe: the model says nothing of what follows, where the engine
  waits for the missing bytes (assumption log 3). -/
  | incompletePacket
deriving DecidableEq, Repr

/-- R25, R156: the state right after reset. Every value is the spec's; the two streams are empty (R25 "at a packet
boundary, expecting a header", R158 unread responses are discarded). -/
def State.reset : State :=
  { h := iv, buf := [], count := 0, err := 0, cmd := [], rsp := [] }

end Sys2Proof.Machine
end

