-- ==== Sys2Proof/Machine/Flags.lean ====
section
/-!
DEFINITION. The error register `ERR`, the engine's only flag-like state (10_state.md R16: no carry, zero, overflow
or sign flag, no condition codes), and the error codes (60_exceptions.md R135).
-/

namespace Sys2Proof.Machine

/-- R135: the code of an error kind, the `STATUS` byte of its response and the value recorded in `ERR`. -/
def ErrorKind.code : ErrorKind → Byte
  | .invalidBlockLength => 0x01
  | .invalidDigestEncoding => 0x02
  | .illegalCommand => 0x03
  | .invalidCount => 0x04

/-- R16, R140 (3): `ERR` is sticky-first: a code is recorded only when `ERR = 0`. -/
def recordError (k : ErrorKind) (err : Byte) : Byte := if err = 0 then k.code else err

end Sys2Proof.Machine
end

