-- ==== Sys2Proof/Machine/Ops.lean ====
section
/-!
DEFINITION. The operations every command shares: ending with a response (30_encoding.md R50) and ending with an
error (60_exceptions.md R140). The engine's errors are its exceptions: R140 saves nothing, changes no mode and
transfers no control, and R142 gives no return from them, so there is no return operation here.
-/

namespace Sys2Proof.Machine

/-- R50: one response packet: a status byte and the response data. `RLEN` is the data's length. -/
structure Response where
  status : Byte
  data : List Byte
deriving DecidableEq, Repr

/-- R50: the response packet's bytes: `STATUS`, `RLEN`, then the data. -/
def Response.bytes (r : Response) : List Byte := r.status :: BitVec.ofNat 8 r.data.length :: r.data

/-- R50: the response of a command that succeeds with data `d`. -/
def Response.success (d : List Byte) : Response := { status := 0x00, data := d }

/-- R50, R140 (4): the response of a command that raises `k`. -/
def Response.failure (k : ErrorKind) : Response := { status := k.code, data := [] }

/-- The engine sends one response packet on the response stream, after those already sent (R38). -/
def State.emit (s : State) (r : Response) : State := { s with rsp := s.rsp ++ r.bytes }

/-- R50 `respond(d)`: ends the command successfully with response data `d`. -/
def State.respond (s : State) (d : List Byte) : State := s.emit (.success d)

/-- R140, error entry, the one way a command raises an error: `H`, `BUF`, `BUFLEN` and `COUNT` stay, `ERR` records
the code if it is 0, the response carries the code and no data, and the engine is at rest. The packet's payload has
been consumed with the packet (R140 (1), `step`). -/
def State.raiseError (s : State) (k : ErrorKind) : State :=
  { s with err := recordError k s.err }.emit (.failure k)

end Sys2Proof.Machine
end

