-- ==== Sys2Proof/Machine/Operands.lean ====
section
/-!
DEFINITION. Operands in payloads and results in response data (30_encoding.md R51, R55): the five state words, the
64-bit counter value, the 20-byte form of a chaining value, the status bytes.
-/

namespace Sys2Proof.Machine

/-- R55, R115: word `k` of a payload, `wk = from_be(payload[4k : 4k+4])`. -/
def payloadWord (p : List Byte) (k : Nat) : Word := BitVec.ofNat 32 (fromBE (slice p (4 * k) (4 * k + 4)))

/-- R55, R115: the five big-endian state words of LDSTATE's payload, most significant word first. -/
def stateOperand (p : List Byte) : HashState :=
  #v[payloadWord p 0, payloadWord p 1, payloadWord p 2, payloadWord p 3, payloadWord p 4]

/-- R55, R117: the 64-bit big-endian value of LDCOUNT's payload, `from_be(payload[0:8])`. -/
def countOperand (p : List Byte) : DWord := BitVec.ofNat 64 (fromBE (slice p 0 8))

/-- R33 (c), R51, R110: the 20 bytes of a chaining value, word 0 first, each word big-endian. -/
def stateBytes (t : HashState) : List Byte := be32 t[0] ++ be32 t[1] ++ be32 t[2] ++ be32 t[3] ++ be32 t[4]

/-- R51, R120: the ten bytes of RDSTATUS: `[ERR] ++ [BUFLEN] ++ be64(COUNT)`. -/
def statusBytes (s : State) : List Byte := s.err :: BitVec.ofNat 8 s.bufLen :: be64 s.count

end Sys2Proof.Machine
end

