-- ==== Sys2Proof/Machine/WordArith.lean ====
section
/-!
DEFINITION. The leaf units: the 32-bit modular adder, the barrel rotator, the complement, the round functions and the
round constants (40_word_arithmetic.md R65 to R73). All are pure functions; none has an encoding of its own.
-/

namespace Sys2Proof.Machine

/-- R65 `add32`: addition modulo 2^32; the carry out of bit 31 is stored nowhere. -/
def add32 (a b : Word) : Word := a + b

/-- R66 `rotl32`, with the 5-bit amount of R67: amounts of 32 and more cannot be expressed, and `n = 0` gives `w`
itself, since `w >> 32` is 0. -/
def rotl32 (w : Word) (n : Fin 32) : Word := (w <<< n.val) ||| (w >>> (32 - n.val))

/-- R68 `not32`: every bit inverted. -/
def not32 (p : Word) : Word := ~~~p

/-- R69, "choose": each bit from `c` where `b` has a 1 and from `d` where `b` has a 0. -/
def choose (b c d : Word) : Word := (b &&& c) ||| (not32 b &&& d)

/-- R69, "parity". -/
def parity (b c d : Word) : Word := b ^^^ c ^^^ d

/-- R69, "majority". -/
def majority (b c d : Word) : Word := (b &&& c) ||| (b &&& d) ||| (c &&& d)

/-- R71: the four ranges of the round index. -/
inductive RoundRange where
  | from0to19
  | from20to39
  | from40to59
  | from60to79
deriving DecidableEq, Repr

/-- R71: the range number is `i div 20`, 0 to 3 for a round index. -/
def roundRange (i : Fin 80) : RoundRange :=
  match i.val / 20 with
  | 0 => .from0to19
  | 1 => .from20to39
  | 2 => .from40to59
  | _ => .from60to79

/-- R69: the round function `f(i, b, c, d)`, by range of `i` and nothing else. -/
def roundF (i : Fin 80) (b c d : Word) : Word :=
  match roundRange i with
  | .from0to19 => choose b c d
  | .from20to39 => parity b c d
  | .from40to59 => majority b c d
  | .from60to79 => parity b c d

/-- R70: the round constant `K(i)`, by range of `i` and nothing else. -/
def roundK (i : Fin 80) : Word :=
  match roundRange i with
  | .from0to19 => 0x5A827999
  | .from20to39 => 0x6ED9EBA1
  | .from40to59 => 0x8F1BBCDC
  | .from60to79 => 0xCA62C1D6

end Sys2Proof.Machine
end

