-- ==== Sys2Proof/Machine/Schedule.lean ====
section
/-!
DEFINITION. The message-schedule expander: from one 64-byte block to the 80-word linear array `x`
(41_message_schedule.md R74 to R78; 20_memory.md R31).
-/

namespace Sys2Proof.Machine

/-- R75: words 0 to 15, `x[j] <- MemRead(4j, 4)`. -/
def blockWords (blk : Block) : List Word :=
  (List.range 16).map fun j => BitVec.ofNat 32 (memRead blk (4 * j) 4)

/-- R76: the word that follows the words `x[0..i)`, `i` at least 16:
`rotl32(x[i-3] xor x[i-8] xor x[i-14] xor x[i-16], 1)`. Every index is inside the list. -/
def nextWord (x : List Word) : Word :=
  let i := x.length
  rotl32 (x.getD (i - 3) 0 ^^^ x.getD (i - 8) 0 ^^^ x.getD (i - 14) 0 ^^^ x.getD (i - 16) 0) 1

/-- R76: `n` further words, in increasing order of index, each from words already written. -/
def extendWords : Nat → List Word → List Word
  | 0, x => x
  | n + 1, x => extendWords n (x ++ [nextWord x])

theorem extendWords_length (n : Nat) (x : List Word) : (extendWords n x).length = x.length + n := by
  induction n generalizing x with
  | zero => rfl
  | succ n ih => simp only [extendWords, ih, List.length_append, List.length_singleton]; omega

/-- R74, R77 `expand(blk)`: the whole array of 80 words, 16 from the block and 64 by the recurrence. -/
def expand (blk : Block) : Vector Word 80 :=
  ⟨(extendWords 64 (blockWords blk)).toArray, by simp [extendWords_length, blockWords]⟩

end Sys2Proof.Machine
end

