-- ==== Sys2Proof/Machine/Compression.lean ====
section
/-!
DEFINITION. The compression function and the command COMPRESS (42_compression.md R80 to R87).
-/

namespace Sys2Proof.Machine

/-- R81: the working variables at the start of a block. -/
def startWorking (s : HashState) : Working := { a := s[0], b := s[1], c := s[2], d := s[3], e := s[4] }

/-- R82: one round with round index `i` and schedule word `xi`. Every right-hand side uses the old values. -/
def roundStep (i : Fin 80) (xi : Word) (v : Working) : Working :=
  let fv := roundF i v.b v.c v.d
  let t := add32 (add32 (add32 (rotl32 v.a 5) fv) v.e) (add32 xi (roundK i))
  { a := t, b := v.a, c := rotl32 v.b 30, d := v.c, e := v.d }

/-- R80: the 80 rounds, `i` from 0 to 79 in order. -/
def rounds (x : Vector Word 80) (v : Working) : Working :=
  (List.finRange 80).foldl (fun v i => roundStep i x[i] v) v

/-- R83: the feed-forward: the input chaining value plus the working variables, word by word. -/
def feedForward (s : HashState) (v : Working) : HashState :=
  #v[add32 s[0] v.a, add32 s[1] v.b, add32 s[2] v.c, add32 s[3] v.d, add32 s[4] v.e]

/-- R80, R84: the compression of a block of 64 bytes, total. -/
def compressBlock (blk : Block) (s : HashState) : HashState :=
  feedForward s (rounds (expand blk) (startWorking s))

/-- R84, R106: the chain of compressions over blocks, in order, from a chaining value `t`: each block's compression
starts from the previous block's output. -/
def compressBlocks (blks : List Block) (t : HashState) : HashState :=
  blks.foldl (fun t blk => compressBlock blk t) t

/-- R80 `compress(block, state)`: raises InvalidBlockLength, before anything else is done, when the byte sequence is
not exactly 64 bytes. -/
def compress (block : List Byte) (s : HashState) : Except ErrorKind HashState :=
  if h : block.length = 64 then .ok (compressBlock ⟨block, h⟩ s) else .error .invalidBlockLength

/-- R86, R87: COMPRESS. `H` is both operand and destination; `BUF` and `COUNT` are not read and not changed. -/
def execCompress (p : List Byte) (s : State) : Host.Outcome State Fault Refusal :=
  match compress p s.h with
  | .ok h' => .next ({ s with h := h' }.respond [])
  | .error k => .next (s.raiseError k)

end Sys2Proof.Machine
end

