-- ==== Sys2Proof/Machine/Accumulator.lean ====
section
/-!
DEFINITION. The stream-block accumulator: the commands INIT and UPDATE (43_accumulator.md R90 to R97).
-/

namespace Sys2Proof.Machine

/-- R90: INIT. It puts `H`, `BUF` and `COUNT` at the values of a newly constructed hasher and leaves `ERR`. -/
def execInit (p : List Byte) (s : State) : Host.Outcome State Fault Refusal :=
  if p.length = 0 then .next ({ s with h := iv, buf := [], count := 0 }.respond [])
  else .next (s.raiseError .illegalCommand)

/-- R92, one turn of the loop, on the sequence `B` held in `buf` (R14: the transient sequence of UPDATE):
`H <- compress(B[0:64], H)`, `COUNT <- (COUNT + 64) mod 2^64`, `B <- B[64 : len(B)]`. -/
def absorbBlock (s : State) (blk : Block) : State :=
  { s with h := compressBlock blk s.h, count := s.count + 64, buf := s.buf.drop 64 }

/-- R92, the loop `while len(B) >= 64`, bounded by a number of turns. -/
def absorbLoop : Nat → State → State
  | 0, s => s
  | n + 1, s =>
    match frontBlock s.buf with
    | none => s
    | some blk => absorbLoop n (absorbBlock s blk)

/-- R92, R93: the whole blocks of `buf` are consumed; `len(B) div 64` turns are exactly enough. -/
def absorb (s : State) : State := absorbLoop (s.buf.length / 64) s

/-- R92: UPDATE: the payload is appended to `BUF`, then every whole block is compressed. Every length is legal. -/
def execUpdate (p : List Byte) (s : State) : Host.Outcome State Fault Refusal :=
  .next ((absorb { s with buf := s.buf ++ p }).respond [])

end Sys2Proof.Machine
end

