-- ==== Sys2Proof/Machine/Finalizer.lean ====
section
/-!
DEFINITION. The Merkle-Damgard padding finalizer: `pad`, `finalize` and the command DIGEST
(44_finalization.md R100 to R110).
-/

namespace Sys2Proof.Machine

/-- R101: the number of zero bytes, in the subtraction-safe form `(119 - (total mod 64)) mod 64`. -/
def zcount (total : Nat) : Nat := (119 - total % 64) % 64

/-- R100: the padding proper of a message of `total` bytes: `[0x80] ++ zeros(z) ++ be64((total * 8) mod 2^64)`. -/
def padding (total : Nat) : List Byte := 0x80 :: (zeros (zcount total) ++ be64 (BitVec.ofNat 64 (total * 8)))

/-- R100 `pad(hb, data)`: the data, then the padding proper of `total = hb + len(data)`. -/
def pad (hb : Nat) (data : List Byte) : List Byte := data ++ padding (hb + data.length)

/-- R106 `finalize`: reads `H`, `BUF` and `COUNT`, writes nothing. -/
def finalize (s : State) : HashState := compressBlocks (chunks (pad s.count.toNat s.buf)) s.h

/-- R108: DIGEST: the 20 bytes of `finalize`; the state keeps everything (R109). -/
def execDigest (p : List Byte) (s : State) : Host.Outcome State Fault Refusal :=
  if p.length = 0 then .next (s.respond (stateBytes (finalize s)))
  else .next (s.raiseError .illegalCommand)

end Sys2Proof.Machine
end

