-- ==== Sys2Proof/Machine/StateAccess.lean ====
section
/-!
DEFINITION. The commands that load and read the state registers and the counter (45_state_access.md R115 to R120).
-/

namespace Sys2Proof.Machine

/-- R115, R116: LDSTATE. It writes `H` only; every 20-byte payload is accepted. -/
def execLdstate (p : List Byte) (s : State) : Host.Outcome State Fault Refusal :=
  if p.length = 20 then .next ({ s with h := stateOperand p }.respond [])
  else .next (s.raiseError .invalidDigestEncoding)

/-- R117, R118: LDCOUNT. The length is checked first, then the value. It writes `COUNT` only. -/
def execLdcount (p : List Byte) (s : State) : Host.Outcome State Fault Refusal :=
  if p.length = 8 then
    if (countOperand p).toNat % 64 = 0 then .next ({ s with count := countOperand p }.respond [])
    else .next (s.raiseError .invalidCount)
  else .next (s.raiseError .illegalCommand)

/-- R119: RDSTATE: the raw chaining value. -/
def execRdstate (p : List Byte) (s : State) : Host.Outcome State Fault Refusal :=
  if p.length = 0 then .next (s.respond (stateBytes s.h))
  else .next (s.raiseError .illegalCommand)

/-- R120: RDSTATUS: `ERR`, `BUFLEN`, `COUNT`. It does not clear `ERR`. -/
def execRdstatus (p : List Byte) (s : State) : Host.Outcome State Fault Refusal :=
  if p.length = 0 then .next (s.respond (statusBytes s))
  else .next (s.raiseError .illegalCommand)

end Sys2Proof.Machine
end

