-- ==== Sys2Proof/Machine/Dispatch.lean ====
section
/-!
DEFINITION. One arm per command of spec/opcode_table.json: the command's meaning.
-/

namespace Sys2Proof.Machine

def exec (i : Instr) (s : State) : Host.Outcome State Fault Refusal :=
  match i with
  | .init p => Sys2Proof.Machine.execInit p s
  | .update p => Sys2Proof.Machine.execUpdate p s
  | .digest p => Sys2Proof.Machine.execDigest p s
  | .compress p => Sys2Proof.Machine.execCompress p s
  | .ldstate p => Sys2Proof.Machine.execLdstate p s
  | .ldcount p => Sys2Proof.Machine.execLdcount p s
  | .rdstate p => Sys2Proof.Machine.execRdstate p s
  | .rdstatus p => Sys2Proof.Machine.execRdstatus p s

end Sys2Proof.Machine
end

