-- ==== Sys2Proof/Machine/Packets.lean ====
section
/-!
DEFINITION. From the command stream to the executed packet: the decode order of a whole packet (30_encoding.md R49)
and what the engine does with its command stream (20_memory.md R37, R38; 70_reset_and_hazards.md R165).
-/

namespace Sys2Proof.Machine

/-- R49, R52: a whole packet, already consumed, is executed: steps 1 and 2 (reserved byte, opcode) decide whether
it selects a command; if not it raises IllegalCommand; steps 3 to 5 are the command's own rule. -/
def execPacket (p : Packet) (s : State) : Host.Outcome State Fault Refusal :=
  match decodePacket p with
  | .ok i => exec i s
  | .error _ => .next (s.raiseError .illegalCommand)

/-- R37, R38, R45: the engine takes the next whole packet off its command stream and executes it as one indivisible
step. With nothing on the stream it is at rest and all its state survives (R151). A part of a packet is refused
(R165; 93 entry U2). -/
def stepStream (s : State) : Host.Outcome State Fault Refusal :=
  match framePacket s.cmd with
  | .ok (p, rest) => execPacket p { s with cmd := rest }
  | .error .noPacket => .next s
  | .error _ => .refused .incompletePacket

end Sys2Proof.Machine
end

