-- ==== Sys2Proof/Machine/Step.lean ====
section
/-!
DEFINITION. One step of the machine, and the host's way to place a command where the next step takes it. What a step
does is in Machine/Packets.lean.
-/

namespace Sys2Proof.Machine

/-- R37: one step per command packet. -/
def step (s : State) : Host.Outcome State Fault Refusal := stepStream s

/-- The state with the command packet of the bits `w` (`tableBytes`) at the front of the command stream, where the
next step takes it; whatever the stream held follows it (assumption log 2). -/
def State.withFetchWord (s : State) (nbits w : Nat) : State := { s with cmd := tableBytes nbits w ++ s.cmd }

end Sys2Proof.Machine
end

