-- ==== Sys2Proof/Machine/Port.lean ====
section
/-!
DEFINITION. What the outside world can do to one engine: send command bytes, read response bytes, assert reset; the
byte transfers of one clock edge (30_encoding.md R58; 70_reset_and_hazards.md R155 to R158); response packets read
back from the response stream (30_encoding.md R50).
-/

namespace Sys2Proof.Machine

/-- R45: the host sends bytes on the command stream. -/
def State.send (s : State) (bs : List Byte) : State := { s with cmd := s.cmd ++ bs }

/-- R154: the host reads `n` bytes of the response stream, or as many as there are. -/
def State.readBytes (s : State) (n : Nat) : List Byte × State := (s.rsp.take n, { s with rsp := s.rsp.drop n })

/-- R155, R156, R158, R159: the event reset, in any state: every register takes its reset value whatever it held,
a packet partly received is abandoned without effect or response, and responses not yet read are discarded. -/
def State.applyReset (_ : State) : State := State.reset

/-- What can happen to an engine: the host's liberties of R154, and the engine's own step. -/
inductive Event where
  | send (bs : List Byte)
  | read (n : Nat)
  | reset
  | step
deriving DecidableEq, Repr

/-- The state after an event. -/
def applyEvent (e : Event) (s : State) : Host.Outcome State Fault Refusal :=
  match e with
  | .send bs => .next (s.send bs)
  | .read n => .next (s.readBytes n).2
  | .reset => .next s.applyReset
  | .step => Sys2Proof.Machine.step s

/-- R58: the port signals at one rising edge of `clk`. Whether the engine accepts (`cmdReady`) or offers
(`rspValid`) at an edge is its own choice, for any finite time (R58, R166; assumption log 4), so both are given. -/
structure Edge where
  rst : Bool
  cmdValid : Bool
  cmdReady : Bool
  cmdData : Byte
  rspValid : Bool
  rspReady : Bool
deriving DecidableEq, Repr

/-- R155, R58: the edges an engine in state `s` can show: while `rst` is 1 it accepts and offers nothing, and it
offers a response byte only when it has one. -/
def Edge.possible (e : Edge) (s : State) : Bool :=
  (!e.rst || (!e.cmdReady && !e.rspValid)) && (!e.rspValid || !s.rsp.isEmpty)

/-- R58: `rsp_data` at an edge: the oldest unread response byte, when the engine offers one. -/
def Edge.rspData (e : Edge) (s : State) : Option Byte := if e.rspValid then s.rsp.head? else none

/-- R58, R155: the transfers of one rising edge: reset when `rst` is 1, and otherwise one command byte where valid
and ready are both 1, and one response byte by the same rule. -/
def clockEdge (e : Edge) (s : State) : State :=
  if e.rst then s.applyReset
  else
    let s1 := if e.cmdValid && e.cmdReady then s.send [e.cmdData] else s
    if e.rspValid && e.rspReady then (s1.readBytes 1).2 else s1

/-- R50: the first response packet of a byte sequence and the bytes after it; none when no whole packet stands at
the front. -/
def parseResponse : List Byte → Option (Response × List Byte)
  | status :: rlen :: rest =>
    if rlen.toNat ≤ rest.length then some ({ status := status, data := rest.take rlen.toNat }, rest.drop rlen.toNat)
    else none
  | _ => none

end Sys2Proof.Machine
end

