-- ==== Sys2Proof/Machine/Caller.lean ====
section
/-!
DEFINITION. The host-side software that drives an engine (46_host_codec_and_extension.md R125 to R131) and the
assembler of 30_encoding.md R56, R57. None of it is part of the engine (00_scope.md R4): each function is a pure
function over byte sequences, character sequences and the engine's commands.
-/

namespace Sys2Proof.Machine

/-! ## Text forms (R125, R126) -/

/-- R125: the value of a hexadecimal digit `0` to `9`, `a` to `f`, `A` to `F`; nothing else is one. -/
def hexDigit (c : Char) : Option Nat :=
  if 0x30 ≤ c.toNat ∧ c.toNat ≤ 0x39 then some (c.toNat - 0x30)
  else if 0x61 ≤ c.toNat ∧ c.toNat ≤ 0x66 then some (c.toNat - 0x61 + 10)
  else if 0x41 ≤ c.toNat ∧ c.toNat ≤ 0x46 then some (c.toNat - 0x41 + 10)
  else none

/-- The values of a sequence of hexadecimal digits; none when some character is not one. -/
def hexDigits : List Char → Option (List Nat)
  | [] => some []
  | c :: cs =>
    match hexDigit c, hexDigits cs with
    | some v, some vs => some (v :: vs)
    | _, _ => none

/-- R125: digits read as a base-16 numeral, leftmost digit most significant. -/
def hexNumeral (ds : List Nat) : Nat := ds.foldl (fun n d => n * 16 + d) 0

/-- R125: word `k` of a digest text: the numeral of its characters `[8k : 8k+8]`. -/
def hexWord (ds : List Nat) (k : Nat) : Word := BitVec.ofNat 32 (hexNumeral ((ds.drop (8 * k)).take 8))

/-- R125 `stateFromHex`: five words from 40 hexadecimal digits, else InvalidDigestEncoding. -/
def stateFromHex (s : List Char) : Except ErrorKind HashState :=
  if s.length = 40 then
    match hexDigits s with
    | some ds => .ok #v[hexWord ds 0, hexWord ds 1, hexWord ds 2, hexWord ds 3, hexWord ds 4]
    | none => .error .invalidDigestEncoding
  else .error .invalidDigestEncoding

/-- R126: the character at index `v` of "0123456789abcdef". -/
def hexChar (v : Nat) : Char := if v < 10 then Char.ofNat (0x30 + v) else Char.ofNat (0x61 + (v - 10))

/-- R126: the lowercase text of response data, two characters a byte. -/
def hexText (d : List Byte) : List Char := d.flatMap fun b => [hexChar (b.toNat / 16), hexChar (b.toNat % 16)]

/-! ## Driving an engine -/

/-- Why a host function gives no result. -/
inductive CallerError where
  /-- R125: the digest text does not decode; raised before any command is sent. -/
  | digestEncoding
  /-- R129, R154 (4): the counter value is 2^64 or more, which the host may not ask for. -/
  | countTooLarge
  /-- The engine answered a command with this error status. -/
  | status (code : Byte)
  /-- The engine gave no response packet (its step was refused). -/
  | noResponse
deriving DecidableEq, Repr

/-- The host sends packet bytes, the engine steps once, the host reads one response packet (R42: the response is the
completion indication). Meant for an engine at rest with both streams empty. -/
def sendPacket (bs : List Byte) (s : State) : Except CallerError (Response × State) :=
  match step (s.send bs) with
  | .next s' =>
    match parseResponse s'.rsp with
    | some (r, rest) => .ok (r, { s' with rsp := rest })
    | none => .error .noResponse
  | _ => .error .noResponse

/-- One command, whose success the host checks; the response data. -/
def issue (i : Instr) (s : State) : Except CallerError (List Byte × State) :=
  match sendPacket (encode i) s with
  | .ok (r, s') => if r.status = 0 then .ok (r.data, s') else .error (.status r.status)
  | .error e => .error e

/-- Several commands in order; the response data of the last one. -/
def issueAll : List Instr → State → Except CallerError (List Byte × State)
  | [], s => .ok ([], s)
  | [i], s => issue i s
  | i :: is, s =>
    match issue i s with
    | .ok (_, s') => issueAll is s'
    | .error e => .error e

/-- R57, R96: a message cut into UPDATE payloads: `m[0:65535]`, `m[65535:...]` and so on; one empty payload for the
empty message. `n` bounds the number of cuts. -/
def cutMessage : Nat → List Byte → List (List Byte)
  | 0, m => [m]
  | n + 1, m => if m.length ≤ 65535 then [m] else m.take 65535 :: cutMessage n (m.drop 65535)

/-- R57: the pieces of a message, each of at most 65535 bytes. -/
def messagePieces (m : List Byte) : List (List Byte) := cutMessage (m.length / 65535) m

/-- R57: `UPDATE m` for a message of any length. -/
def updateCommands (m : List Byte) : List Instr := (messagePieces m).map Instr.update

/-- R57, R127: `HASH m` expands to `INIT; UPDATE m; DIGEST`. -/
def hashCommands (m : List Byte) : List Instr := .init [] :: (updateCommands m ++ [.digest []])

/-- R127 `hash(m)`, in commands on an engine: the 20 digest bytes. -/
def hostHash (m : List Byte) (s : State) : Except CallerError (List Byte × State) := issueAll (hashCommands m) s

/-- R126 `hexdigest()`: DIGEST, then its text. -/
def hostHexdigest (s : State) : Except CallerError (List Char × State) :=
  match issue (.digest []) s with
  | .ok (d, s') => .ok (hexText d, s')
  | .error e => .error e

/-- R129: the commands of the length-extension flow before its DIGEST: INIT, LDSTATE, LDCOUNT, UPDATE. -/
def extendCommands (w : HashState) (c : Nat) (appendix : List Byte) : List Instr :=
  .init [] :: .ldstate (stateBytes w) :: .ldcount (be64 (BitVec.ofNat 64 c)) :: updateCommands appendix

/-- R129, R131 `extend(D, M, A, Lp)`, corrected as R131 says: the counter is `Lp + len(pad(Lp, M))`, and the suffix
returned is the padding proper `P` followed by the appendix. -/
def hostExtend (knownDigest : List Char) (knownSuffix appendix : List Byte) (prefixLen : Nat) (s : State) :
    Except CallerError ((List Char × List Byte) × State) :=
  match stateFromHex knownDigest with
  | .error _ => .error .digestEncoding
  | .ok w =>
    let pb := pad prefixLen knownSuffix
    let p := pb.drop knownSuffix.length
    let c := prefixLen + pb.length
    if c < 2 ^ 64 then
      match issueAll (extendCommands w c appendix) s with
      | .error e => .error e
      | .ok (_, s1) =>
        match hostHexdigest s1 with
        | .error e => .error e
        | .ok (d, s2) => .ok ((d, p ++ appendix), s2)
    else .error .countTooLarge

/-! ## The assembler (R56, R57) -/

/-- R56: the operand of a command line. -/
inductive AsmOperand where
  /-- No operand. -/
  | none
  /-- A quoted string of printable ASCII characters, one byte each. -/
  | text (cs : List Char)
  /-- `hex:` and an even number of hexadecimal digits, two per byte, first pair first. -/
  | hex (cs : List Char)
  /-- A decimal number, for LDCOUNT, encoded as `be64`. -/
  | decimal (n : Nat)
  /-- `"c"*n`: `n` repetitions of one character. -/
  | repeated (c : Char) (n : Nat)
deriving DecidableEq, Repr

/-- R56: a printable ASCII character's byte. -/
def asciiByte (c : Char) : Option Byte :=
  if 0x20 ≤ c.toNat ∧ c.toNat ≤ 0x7E then some (BitVec.ofNat 8 c.toNat) else none

/-- The bytes of a string of printable ASCII characters. -/
def asciiBytes : List Char → Option (List Byte)
  | [] => some []
  | c :: cs =>
    match asciiByte c, asciiBytes cs with
    | some b, some bs => some (b :: bs)
    | _, _ => none

/-- Pairs of hexadecimal digits as bytes; none for an odd number of them. -/
def pairBytes : List Nat → Option (List Byte)
  | [] => some []
  | [_] => none
  | d :: e :: ds =>
    match pairBytes ds with
    | some bs => some (BitVec.ofNat 8 (16 * d + e) :: bs)
    | none => none

/-- R56: the payload an operand spells for a command; none where it is not an operand that command takes. -/
def operandBytes (op : Opcode) (x : AsmOperand) : Option (List Byte) :=
  match op, x with
  | .init, .none => some []
  | .digest, .none => some []
  | .rdstate, .none => some []
  | .rdstatus, .none => some []
  | .ldcount, .decimal n => if n < 2 ^ 64 then some (be64 (BitVec.ofNat 64 n)) else none
  | .init, _ => none
  | .digest, _ => none
  | .rdstate, _ => none
  | .rdstatus, _ => none
  | _, .none => none
  | _, .decimal _ => none
  | _, .text cs => asciiBytes cs
  | _, .hex cs =>
    match hexDigits cs with
    | some ds => pairBytes ds
    | none => none
  | _, .repeated c n =>
    match asciiByte c with
    | some b => some (List.replicate n b)
    | none => none

/-- R56: one command line assembled: the assembler computes `LEN` from the operand and sets `RSV = 0`. -/
def assemble (op : Opcode) (x : AsmOperand) : Option Instr :=
  match operandBytes op x with
  | some p => if p.length ≤ 65535 then some (op.instr p) else none
  | none => none

/-- R57: the pseudo-commands. -/
inductive Pseudo where
  | hash (m : List Byte)
  | update (m : List Byte)
  | hexdigest
  | ldstatehex (s : List Char)
deriving DecidableEq, Repr

/-- R57: the commands a pseudo-command expands to. HEXDIGEST's rendering is the host's (`hexText`); LDSTATEHEX
fails on the host when the text does not decode. -/
def Pseudo.commands : Pseudo → Except ErrorKind (List Instr)
  | .hash m => .ok (hashCommands m)
  | .update m => .ok (updateCommands m)
  | .hexdigest => .ok [.digest []]
  | .ldstatehex s =>
    match stateFromHex s with
    | .ok w => .ok [.ldstate (stateBytes w)]
    | .error k => .error k

end Sys2Proof.Machine
end

