-- ==== Sys2Proof/Config.lean ====
section
/-!
DEFINITION. What an implementation fixes and the spec leaves open: the two open parameters `N_ENGINES` and
`CYCLES_PER_BLOCK` (00_scope.md R7, 92_eei_decisions.md D17, D18). The spec leaves no value of any command's
result open, so there is no free value here. The sizes of R6 are fixed by the spec and stand as literals in the
definitions that use them.
-/

namespace Sys2Proof

/-- R7: the open parameters a model takes as arguments. No rule of the spec depends on either (93 entry U10). -/
structure Config where
  /-- R153 `N_ENGINES`: how many independent engine instances there are, at least 1. -/
  nEngines : Nat
  /-- R171 `CYCLES_PER_BLOCK`: a number for implementers. The model has no notion of time and never reads it. -/
  cyclesPerBlock : Nat
deriving DecidableEq, Repr

/-- R153: `N_ENGINES >= 1`. -/
abbrev Config.wf (c : Config) : Prop := 1 ≤ c.nEngines

end Sys2Proof
end

