-- ==== Sys2Proof/Machine/Instances.lean ====
section
/-!
DEFINITION. Several independent engine instances (60_exceptions.md R153). The list's positions are the model's way to
say which instance an event is for; no command can see them.
-/

namespace Sys2Proof.Machine

/-- R153: the engines of a system, each with its own state and its own streams. -/
abbrev Engines := List State

/-- R153, R156: `N_ENGINES` engines after reset. -/
def Engines.reset (c : Config) : Engines := List.replicate c.nEngines State.reset

/-- An event of engine `k`. It is a fault or refusal of the whole only when it is one of that engine; an event of an
engine that does not exist changes nothing. -/
def Engines.apply (es : Engines) (k : Nat) (e : Event) : Host.Outcome Engines Fault Refusal :=
  match es[k]? with
  | none => .next es
  | some s =>
    match applyEvent e s with
    | .next s' => .next (es.set k s')
    | .fault r => .fault r
    | .refused r => .refused r

end Sys2Proof.Machine
end

