-- ==== Sys2Proof/Safety.lean ====
section
/-!
DEFINITION. The terms the claims use: the invariant of the engine's state, and what a run of whole packets is
(10_state.md R14 to R16; 70_reset_and_hazards.md R165, R172).
-/

namespace Sys2Proof

open Sys2Proof.Machine

/-- R14 (`0 <= BUFLEN <= 63` at rest), R15 (`COUNT mod 64 = 0` at all times), R16 and R135 (`ERR` holds 0 or one of
the four codes). -/
abbrev Machine.State.Inv (s : State) : Prop :=
  s.buf.length ≤ 63 ∧ s.count.toNat % 64 = 0 ∧ s.err.toNat ≤ 4

/-- R10, R22: the architectural registers of two states agree; their streams may differ. -/
abbrev Machine.State.SameRegs (s t : State) : Prop :=
  s.h = t.h ∧ s.buf = t.buf ∧ s.count = t.count ∧ s.err = t.err

/-- R58, R129, R154: an engine at rest whose host has read every response: both streams are empty. -/
abbrev Machine.State.Idle (s : State) : Prop := s.cmd = [] ∧ s.rsp = []

/-- R45, R172: the command stream of a run: whole packets, back to back. -/
def packetStream (ps : List Packet) : List Byte := ps.flatMap Packet.bytes

/-- R50: the response stream of a run: response packets, back to back. -/
def responseStream (rs : List Response) : List Byte := rs.flatMap Response.bytes

/-- Commands executed one after another (R38), as far as each answers a next state. -/
def execAll : List Instr → State → Host.Outcome State Fault Refusal
  | [], s => .next s
  | i :: is, s =>
    match exec i s with
    | .next s' => execAll is s'
    | .fault r => .fault r
    | .refused r => .refused r

end Sys2Proof
end

