-- ==== Sys2Proof/Certificates/Slice0/Obligations.lean ====
section
/-!
DEFINITION. The statements for the provers, family by family. Each docstring names the rule of the spec it formalises.
A command's whole effect is stated as one equality of states, so that a field not named in the update is unchanged:
that equality is the command's frame.
-/

open Sys2Proof Sys2Proof.Machine

/-! ## The commands: result, frame, completion, error -/

/-- R90, whole: INIT's encoding, its effect, and its error on a wrong length. The five words are R13's `IV`, which the spec
supplies by its decision D27. -/
def Obligations.InitConstructsHasher : Prop :=
  encode (.init []) = [0x01, 0x00, 0x00, 0x00] ∧
  ∀ (p : List Byte) (s : State),
    (p.length = 0 → exec (.init p) s = .next
      { s with
        h := #v[0x67452301, 0xEFCDAB89, 0x98BADCFE, 0x10325476, 0xC3D2E1F0]
        buf := [], count := 0, rsp := s.rsp ++ [0x00, 0x00] }) ∧
    (p.length ≠ 0 → exec (.init p) s = .next
      { s with err := if s.err = 0 then 0x03 else s.err, rsp := s.rsp ++ [0x03, 0x00] })

/-- R92: UPDATE's encoding and its loop, one turn at a time: with fewer than 64 bytes in `BUF ++ P` they are the new
buffer; with 64 or more, the first 64 are compressed into `H`, `COUNT` grows by 64 modulo 2^64, and UPDATE goes on
with the rest. -/
def Obligations.UpdateRunsTheBlockLoop : Prop :=
  ∀ (p : List Byte) (s : State),
    (p.length ≤ 65535 → encode (.update p) =
      [0x02, 0x00, BitVec.ofNat 8 (p.length / 256), BitVec.ofNat 8 (p.length % 256)] ++ p) ∧
    ((s.buf ++ p).length < 64 →
      exec (.update p) s = .next { s with buf := s.buf ++ p, rsp := s.rsp ++ [0x00, 0x00] }) ∧
    (64 ≤ (s.buf ++ p).length →
      ∃ h' : HashState, compress (slice (s.buf ++ p) 0 64) s.h = .ok h' ∧
        exec (.update p) s =
          exec (.update []) { s with h := h', count := s.count + 64, buf := (s.buf ++ p).drop 64 })

/-- R93, whole: UPDATE's closed form: `q = n div 64` compressions of consecutive slices, none of which raises, `COUNT`
grown by `64 * q` modulo 2^64, the rest in `BUF`, and `q` at most 1024 for a packet at rest. -/
def Obligations.UpdateClosedForm : Prop :=
  ∀ (p : List Byte) (s : State),
    let b := s.buf ++ p
    let q := (s.bufLen + p.length) / 64
    (∃ h' : HashState,
      (List.range q).foldlM (fun h i => compress (slice b (64 * i) (64 * i + 64)) h) s.h = .ok h' ∧
      exec (.update p) s = .next
        { s with h := h', count := s.count + BitVec.ofNat 64 (64 * q), buf := b.drop (64 * q)
                 rsp := s.rsp ++ [0x00, 0x00] }) ∧
    (b.drop (64 * q)).length = (s.bufLen + p.length) % 64 ∧
    (s.bufLen ≤ 63 → p.length ≤ 65535 → q ≤ 1024)

/-- R94: UPDATE with `LEN = 0` changes no state at rest and responds `00 00`. -/
def Obligations.EmptyUpdateIsNoOp : Prop :=
  encode (.update []) = [0x02, 0x00, 0x00, 0x00] ∧
  ∀ s : State, s.bufLen ≤ 63 → exec (.update []) s = .next { s with rsp := s.rsp ++ [0x00, 0x00] }

/-- R106 and R108, whole: DIGEST's encoding, `finalize` as the chain of compressions over `pad(COUNT, BUF)` from a copy
of `H`, none of which raises, the 20 bytes of the response, and the error on a wrong length. -/
def Obligations.DigestReportsFinalization : Prop :=
  encode (.digest []) = [0x03, 0x00, 0x00, 0x00] ∧
  ∀ (p : List Byte) (s : State),
    let padded := pad s.count.toNat s.buf
    (s.count.toNat % 64 = 0 → padded.length % 64 = 0) ∧
    (p.length = 0 → ∃ t : HashState,
      (List.range (padded.length / 64)).foldlM
        (fun t k => compress (slice padded (64 * k) (64 * k + 64)) t) s.h = .ok t ∧
      finalize s = t ∧
      exec (.digest p) s = .next
        { s with rsp := s.rsp ++ ([0x00, 0x14] : List Byte) ++ be32 t[0] ++ be32 t[1] ++ be32 t[2] ++ be32 t[3] ++ be32 t[4] }) ∧
    (p.length ≠ 0 → exec (.digest p) s = .next
      { s with err := if s.err = 0 then 0x03 else s.err, rsp := s.rsp ++ [0x03, 0x00] })

/-- R86 and R87: COMPRESS's encoding, its effect on `H` alone, and InvalidBlockLength on any other length. -/
def Obligations.CompressReplacesChainingValue : Prop :=
  ∀ (p : List Byte) (s : State),
    (p.length = 64 → encode (.compress p) = [0x04, 0x00, 0x00, 0x40] ++ p) ∧
    (p.length = 64 → ∃ h' : HashState, compress p s.h = .ok h' ∧
      exec (.compress p) s = .next { s with h := h', rsp := s.rsp ++ [0x00, 0x00] }) ∧
    (p.length ≠ 64 → exec (.compress p) s = .next
      { s with err := if s.err = 0 then 0x01 else s.err, rsp := s.rsp ++ [0x01, 0x00] })

/-- R115 and R116: LDSTATE's encoding, the five big-endian words, its effect on `H` alone, and InvalidDigestEncoding on
any other length. -/
def Obligations.LdstateLoadsFiveWords : Prop :=
  ∀ (p : List Byte) (s : State),
    (p.length = 20 → encode (.ldstate p) = [0x05, 0x00, 0x00, 0x14] ++ p) ∧
    (p.length = 20 → exec (.ldstate p) s = .next
      { s with
        h := #v[BitVec.ofNat 32 (fromBE (slice p 0 4)), BitVec.ofNat 32 (fromBE (slice p 4 8)),
                BitVec.ofNat 32 (fromBE (slice p 8 12)), BitVec.ofNat 32 (fromBE (slice p 12 16)),
                BitVec.ofNat 32 (fromBE (slice p 16 20))]
        rsp := s.rsp ++ [0x00, 0x00] }) ∧
    (p.length ≠ 20 → exec (.ldstate p) s = .next
      { s with err := if s.err = 0 then 0x02 else s.err, rsp := s.rsp ++ [0x02, 0x00] })

/-- R117 and R118: LDCOUNT's encoding, its effect on `COUNT` alone, IllegalCommand on a wrong length, InvalidCount on a
value that is not a multiple of 64. -/
def Obligations.LdcountLoadsMultiplesOf64 : Prop :=
  ∀ (p : List Byte) (s : State),
    (p.length = 8 → encode (.ldcount p) = [0x06, 0x00, 0x00, 0x08] ++ p) ∧
    (p.length = 8 → fromBE p % 64 = 0 → exec (.ldcount p) s = .next
      { s with count := BitVec.ofNat 64 (fromBE p), rsp := s.rsp ++ [0x00, 0x00] }) ∧
    (p.length = 8 → fromBE p % 64 ≠ 0 → exec (.ldcount p) s = .next
      { s with err := if s.err = 0 then 0x04 else s.err, rsp := s.rsp ++ [0x04, 0x00] }) ∧
    (p.length ≠ 8 → exec (.ldcount p) s = .next
      { s with err := if s.err = 0 then 0x03 else s.err, rsp := s.rsp ++ [0x03, 0x00] })

/-- R119: RDSTATE's encoding, its 20 bytes, and its error on a wrong length; it changes no register. The bytes it returns,
given back to LDSTATE on any engine, load the same chaining value. -/
def Obligations.RdstateReturnsChainingValue : Prop :=
  encode (.rdstate []) = [0x07, 0x00, 0x00, 0x00] ∧
  (∀ (p : List Byte) (s : State),
    (p.length = 0 → exec (.rdstate p) s = .next
      { s with rsp := s.rsp ++ ([0x00, 0x14] : List Byte) ++ be32 s.h[0] ++ be32 s.h[1] ++ be32 s.h[2] ++ be32 s.h[3] ++ be32 s.h[4] }) ∧
    (p.length ≠ 0 → exec (.rdstate p) s = .next
      { s with err := if s.err = 0 then 0x03 else s.err, rsp := s.rsp ++ [0x03, 0x00] })) ∧
  (∀ s t : State,
    exec (.ldstate (be32 s.h[0] ++ be32 s.h[1] ++ be32 s.h[2] ++ be32 s.h[3] ++ be32 s.h[4])) t = .next
      { t with h := s.h, rsp := t.rsp ++ [0x00, 0x00] })

/-- R120: RDSTATUS's encoding, its ten bytes, and its error on a wrong length; it changes no register, `ERR` included. -/
def Obligations.RdstatusReportsRegisters : Prop :=
  encode (.rdstatus []) = [0x08, 0x00, 0x00, 0x00] ∧
  ∀ (p : List Byte) (s : State),
    (p.length = 0 → exec (.rdstatus p) s = .next
      { s with rsp := s.rsp ++ [0x00, 0x0A] ++ [s.err] ++ [BitVec.ofNat 8 s.bufLen] ++ be64 s.count }) ∧
    (p.length ≠ 0 → exec (.rdstatus p) s = .next
      { s with err := if s.err = 0 then 0x03 else s.err, rsp := s.rsp ++ [0x03, 0x00] })

/-- R142, R150: the engine never locks up and no state forbids a command: every command, of any payload, in every
state, answers a next state, and leaves the command stream to the step. -/
def Obligations.EveryCommandAnswersNext : Prop :=
  ∀ (i : Instr) (s : State), ∃ t : State, exec i s = .next t ∧ t.cmd = s.cmd

/-! ## Word arithmetic, schedule, compression -/

/-- R65: the adder wraps modulo 2^32; zero is its identity; it is commutative and associative. -/
def Obligations.AdderWrapsModulo : Prop :=
  ∀ a b c : Word,
    (add32 a b).toNat = (a.toNat + b.toNat) % 2 ^ 32 ∧ add32 a 0 = a ∧ add32 a b = add32 b a ∧
    add32 (add32 a b) c = add32 a (add32 b c)

/-- R66: the rotator, by its formula over unbounded shifts and by where each bit goes. -/
def Obligations.RotatorMovesEveryBit : Prop :=
  ∀ (w : Word) (n : Fin 32), 0 < n.val →
    (rotl32 w n).toNat = ((w.toNat * 2 ^ n.val) ||| (w.toNat / 2 ^ (32 - n.val))) % 2 ^ 32 ∧
    ∀ j : Nat, j < 32 → (rotl32 w n).getLsbD ((j + n.val) % 32) = w.getLsbD j

/-- R68, `not32(p) = 0xFFFFFFFF - p`, and R67's decision that a rotation by 0 is the identity (assumption log 8). -/
def Obligations.ComplementAndZeroRotation : Prop :=
  ∀ p : Word, (not32 p).toNat = 0xFFFFFFFF - p.toNat ∧ rotl32 p 0 = p

/-- R69, R70, R82: one round, written out over the plain word operations, with the function and the constant of each
range. -/
def Obligations.RoundFollowsItsFormula : Prop :=
  ∀ (i : Fin 80) (x : Word) (v : Working),
    let f : Word :=
      if i.val ≤ 19 then (v.b &&& v.c) ||| (~~~v.b &&& v.d)
      else if i.val ≤ 39 then v.b ^^^ v.c ^^^ v.d
      else if i.val ≤ 59 then (v.b &&& v.c) ||| (v.b &&& v.d) ||| (v.c &&& v.d)
      else v.b ^^^ v.c ^^^ v.d
    let k : Word :=
      if i.val ≤ 19 then 0x5A827999 else if i.val ≤ 39 then 0x6ED9EBA1
      else if i.val ≤ 59 then 0x8F1BBCDC else 0xCA62C1D6
    roundStep i x v =
      { a := v.a.rotateLeft 5 + f + v.e + (x + k), b := v.a, c := v.b.rotateLeft 30, d := v.c, e := v.d }

/-- R75 and R76: the sixteen block words, byte by byte, and the recurrence for the other 64. -/
def Obligations.ScheduleFollowsRecurrence : Prop :=
  ∀ blk : Block,
    (∀ j : Fin 16, ((expand blk)[j.val]'(by omega)).toNat =
      ((blk.bytes[4 * j.val]'(by have := blk.size; omega)).toNat) * 2 ^ 24 +
      ((blk.bytes[4 * j.val + 1]'(by have := blk.size; omega)).toNat) * 2 ^ 16 +
      ((blk.bytes[4 * j.val + 2]'(by have := blk.size; omega)).toNat) * 2 ^ 8 +
      ((blk.bytes[4 * j.val + 3]'(by have := blk.size; omega)).toNat)) ∧
    (∀ (i : Nat) (lo : 16 ≤ i) (hi : i < 80), (expand blk)[i] =
      ((expand blk)[i - 3] ^^^ (expand blk)[i - 8] ^^^ (expand blk)[i - 14] ^^^ (expand blk)[i - 16]).rotateLeft 1)

/-- R80, R81, R83: compression of 64 bytes as a trace: the working variables start as the chaining value, go through the
rounds 0 to 79 in order, each with its schedule word, and are added to the chaining value; of any other length it raises
InvalidBlockLength. -/
def Obligations.CompressionIsEightyRounds : Prop :=
  ∀ (block : List Byte) (s : HashState),
    (∀ len : block.length = 64, ∃ v : Nat → Working,
      v 0 = { a := s[0], b := s[1], c := s[2], d := s[3], e := s[4] } ∧
      (∀ (i : Nat) (hi : i < 80), v (i + 1) = roundStep ⟨i, hi⟩ ((expand ⟨block, len⟩)[i]) (v i)) ∧
      compress block s = .ok
        #v[s[0] + (v 80).a, s[1] + (v 80).b, s[2] + (v 80).c, s[3] + (v 80).d, s[4] + (v 80).e]) ∧
    (block.length ≠ 64 → compress block s = .error .invalidBlockLength)

/-- R8, R30: the primitives of the block space: a read after a write of the same bytes gives the value's low bytes, and
every other byte of the block is unchanged. -/
def Obligations.BlockReadAfterWrite : Prop :=
  ∀ (blk : Block) (addr n v : Nat) (inside : addr + n ≤ 64),
    memRead (memWrite blk addr n v inside) addr n = v % 256 ^ n ∧
    ∀ j : Nat, (j < addr ∨ addr + n ≤ j) → (memWrite blk addr n v inside).bytes[j]? = blk.bytes[j]?

/-! ## Padding and finalization -/

/-- R101: `zcount(total)` is the least `z` with `(total + 1 + z) mod 64 = 56`, and the three forms agree. -/
def Obligations.ZeroCountIsLeast : Prop :=
  ∀ total : Nat,
    (total + 1 + zcount total) % 64 = 56 ∧
    (∀ z : Nat, (total + 1 + z) % 64 = 56 → zcount total ≤ z) ∧
    (zcount total : Int) = (56 - (((total : Int) + 1) % 64)) % 64 ∧
    zcount total = (119 - total % 64) % 64 ∧
    zcount total = (if total % 64 ≤ 55 then 55 - total % 64 else 119 - total % 64)

/-- R100 and R102: the padded sequence, its length law, and its last eight bytes. -/
def Obligations.PaddingLawHolds : Prop :=
  ∀ (hb : Nat) (data : List Byte),
    let total := hb + data.length
    let padded := pad hb data
    padded = data ++ [0x80] ++ zeros (zcount total) ++ be64 (BitVec.ofNat 64 ((total * 8) % 2 ^ 64)) ∧
    0 < hb + padded.length ∧ (hb + padded.length) % 64 = 0 ∧
    (padded.length % 64 = 0 ↔ hb % 64 = 0) ∧
    fromBE (padded.drop (padded.length - 8)) = (total * 8) % 2 ^ 64 ∧
    padded[data.length]? = some 0x80 ∧
    (∀ j : Nat, data.length < j → j < padded.length - 8 → padded[j]? = some 0x00)

/-- R103 and R107: at rest the padding is one block when `BUFLEN <= 55` and two when `BUFLEN >= 56`, laid out as R103
draws them, and `finalize` compresses exactly those. -/
def Obligations.FinalizeRunsOneOrTwoBlocks : Prop :=
  ∀ s : State, s.count.toNat % 64 = 0 → s.bufLen ≤ 63 →
    let l := be64 (BitVec.ofNat 64 (((s.count.toNat + s.bufLen) * 8) % 2 ^ 64))
    (s.bufLen ≤ 55 →
      pad s.count.toNat s.buf = s.buf ++ [0x80] ++ zeros (55 - s.bufLen) ++ l ∧
      compress (s.buf ++ [0x80] ++ zeros (55 - s.bufLen) ++ l) s.h = .ok (finalize s)) ∧
    (56 ≤ s.bufLen →
      pad s.count.toNat s.buf = (s.buf ++ [0x80] ++ zeros (63 - s.bufLen)) ++ (zeros 56 ++ l) ∧
      ∃ t : HashState, compress (s.buf ++ [0x80] ++ zeros (63 - s.bufLen)) s.h = .ok t ∧
        compress (zeros 56 ++ l) t = .ok (finalize s))

/-- R104: the length field is the whole message's bit length modulo 2^64, equally `be64((total mod 2^61) * 8)`; it is
all zero for `COUNT = 2^61` and an empty buffer. -/
def Obligations.LengthFieldCountsBits : Prop :=
  (∀ (hb : Nat) (data : List Byte),
    (pad hb data).drop ((pad hb data).length - 8) =
      be64 (BitVec.ofNat 64 (((hb + data.length) % 2 ^ 61) * 8))) ∧
  (pad (2 ^ 61) []).drop 56 = zeros 8

/-- R109: finalization is non-destructive: DIGEST leaves every register as it was, a second DIGEST returns the same
bytes, and an UPDATE after a DIGEST goes on as if there had been none. -/
def Obligations.DigestIsNonDestructive : Prop :=
  ∀ (s : State) (p : List Byte), ∃ (d : List Byte) (t u v w : State),
    exec (.digest []) s = .next t ∧ t = { s with rsp := s.rsp ++ d } ∧
    exec (.digest []) t = .next u ∧ u = { s with rsp := s.rsp ++ d ++ d } ∧
    exec (.update p) t = .next v ∧ exec (.update p) s = .next w ∧ v.SameRegs w

/-! ## Byte order -/

/-- R33, R110, R115, R119: byte `4k + j` of a chaining value's 20 bytes is bits `31-8j` to `24-8j` of word `k`, and the
bytes RDSTATE or DIGEST returns can be given back to LDSTATE unchanged. -/
def Obligations.StateBytesRoundTrip : Prop :=
  (∀ t : HashState, (stateBytes t).length = 20 ∧ stateOperand (stateBytes t) = t ∧
    ∀ (k : Fin 5) (j : Fin 4), (stateBytes t)[4 * k.val + j.val]? =
      some ((t[k.val]).extractLsb' (24 - 8 * j.val) 8)) ∧
  (∀ p : List Byte, p.length = 20 → stateBytes (stateOperand p) = p)

/-- R34, R55, R120: the count bytes RDSTATUS returns are the payload LDCOUNT takes, both ways. -/
def Obligations.CountBytesRoundTrip : Prop :=
  (∀ v : DWord, (be64 v).length = 8 ∧ countOperand (be64 v) = v ∧ fromBE (be64 v) = v.toNat) ∧
  (∀ p : List Byte, p.length = 8 → be64 (countOperand p) = p)

/-! ## Encoding and decoding -/

/-- R45 to R47: decoding the encoded command gives it back, with every payload that has an encoding (legal length or
not), whatever follows it on the stream. -/
def Obligations.DecodeOfEncodeIsTheCommand : Prop :=
  ∀ (i : Instr) (rest : List Byte), i.fits = true → decode (encode i ++ rest) = .ok (i, rest)

/-- R45 to R47: whatever decodes is the encoding of what it decodes to: each command packet has one spelling. -/
def Obligations.DecodedBytesAreTheEncoding : Prop :=
  ∀ (bs rest : List Byte) (i : Instr), decode bs = .ok (i, rest) → i.fits = true ∧ bs = encode i ++ rest

/-- R47: the opcode map: a header selects a command exactly when it has the row's match value under the mask; the
header's four bytes are the packet's first four; and a payload of a length the row does not allow raises the row's
LEN error. -/
def Obligations.OpcodeMapFollowsTheTable : Prop :=
  (∀ (p : Packet) (op : Opcode), p.fits = true →
    (decodePacket p = .ok (op.instr p.payload) ↔ p.header &&& 0xFFFF0000 = op.matchWord) ∧
    be32 p.header = p.bytes.take 4) ∧
  (∀ (op : Opcode) (p : List Byte) (s : State), p.length ≤ 65535 → op.legalLen p.length = false →
    op ≠ .update ∧
    exec (op.instr p) s = .next (s.raiseError
      (match op with
       | .compress => .invalidBlockLength
       | .ldstate => .invalidDigestEncoding
       | _ => .illegalCommand)))

/-- R46, R47, R56: a few packets written out byte by byte from the spec's encoding decode to their commands. -/
def Obligations.WrittenPacketsDecode : Prop :=
  decode [0x01, 0x00, 0x00, 0x00] = .ok (.init [], []) ∧
  decode [0x02, 0x00, 0x00, 0x06, 0x6E, 0x61, 0x6E, 0x61, 0x6E, 0x61] =
    .ok (.update [0x6E, 0x61, 0x6E, 0x61, 0x6E, 0x61], []) ∧
  decode [0x03, 0x00, 0x00, 0x00, 0x08] = .ok (.digest [], [0x08]) ∧
  decode [0x06, 0x00, 0x00, 0x08, 0x00, 0x00, 0x00, 0x00, 0x00, 0x00, 0x00, 0x40] =
    .ok (.ldcount [0x00, 0x00, 0x00, 0x00, 0x00, 0x00, 0x00, 0x40], []) ∧
  decode [0x01, 0x01, 0x00, 0x00] = .error .reservedByte ∧
  decode [0x09, 0x00, 0x00, 0x02, 0xAA, 0xBB] = .error .unassignedOpcode

/-- R21, R46, R165: the byte-serial parser agrees with framing: over whole packets it gives back the packets and is at a
packet boundary; over a part of a packet it gives none and is at a boundary only before the first byte. -/
def Obligations.SerialParserFramesPackets : Prop :=
  (∀ ps : List Packet, (∀ p ∈ ps, p.fits = true) → Parser.boundary.feed (packetStream ps) = (.boundary, ps)) ∧
  (∀ (p : Packet) (n : Nat), p.fits = true → n < p.bytes.length →
    (Parser.boundary.feed (p.bytes.take n)).2 = [] ∧
    ((Parser.boundary.feed (p.bytes.take n)).1 = .boundary ↔ n = 0))

/-! ## The step -/

/-- A step runs the decoded command (R37, R38): with an encoded command at the front of the command stream, whatever
follows it, the step takes its packet off the stream and is that command's execution. -/
def Obligations.StepRunsTheDecodedCommand : Prop :=
  ∀ (i : Instr) (rest : List Byte) (s : State), i.fits = true → s.cmd = encode i ++ rest →
    Sys2Proof.Machine.step s = exec i { s with cmd := rest }

/-- R52: every illegal packet is consumed whole, changes nothing but `ERR`, and is answered `03 00`: a reserved byte
that is not 0, an unassigned opcode, and a wrong length of the commands whose LEN error is IllegalCommand. -/
def Obligations.IllegalPacketsRaiseIllegalCommand : Prop :=
  ∀ (p : Packet) (rest : List Byte) (s : State), p.fits = true → s.cmd = p.bytes ++ rest →
    (p.rsv ≠ 0x00 ∨ p.opc = 0x00 ∨ 0x09 ≤ p.opc.toNat ∨
      (p.opc ∈ [0x01, 0x03, 0x07, 0x08] ∧ p.payload.length ≠ 0) ∨ (p.opc = 0x06 ∧ p.payload.length ≠ 8)) →
    Sys2Proof.Machine.step s = .next
      { s with cmd := rest, err := if s.err = 0 then 0x03 else s.err, rsp := s.rsp ++ [0x03, 0x00] }

/-- R49, R141: the first failing check decides the status: reserved byte, opcode, length, value. -/
def Obligations.FirstFailingCheckDecides : Prop :=
  ∀ (p : Packet) (rest : List Byte) (s : State), p.fits = true → s.cmd = p.bytes ++ rest →
    ∃ (t : State) (r : Response),
      Sys2Proof.Machine.step s = .next t ∧ t.rsp = s.rsp ++ r.bytes ∧
      r.status =
        (if p.rsv ≠ 0x00 then 0x03
         else if p.opc.toNat = 0 ∨ 8 < p.opc.toNat then 0x03
         else if p.opc = 0x04 ∧ p.payload.length ≠ 64 then 0x01
         else if p.opc = 0x05 ∧ p.payload.length ≠ 20 then 0x02
         else if p.opc ∈ [0x01, 0x03, 0x07, 0x08] ∧ p.payload.length ≠ 0 then 0x03
         else if p.opc = 0x06 ∧ p.payload.length ≠ 8 then 0x03
         else if p.opc = 0x06 ∧ fromBE p.payload % 64 ≠ 0 then 0x04
         else 0x00)

/-- R46, R43: framing depends on `LEN` alone: with a whole packet at the front the step answers a next state, and it
takes exactly the header and `LEN` bytes off the stream, whatever `OPC`, `RSV` and the payload are. -/
def Obligations.FramingDependsOnLenAlone : Prop :=
  ∀ (opc rsv lenHi lenLo : Byte) (rest : List Byte) (s : State),
    s.cmd = opc :: rsv :: lenHi :: lenLo :: rest →
    lenHi.toNat * 256 + lenLo.toNat ≤ rest.length →
    ∃ t : State, Sys2Proof.Machine.step s = .next t ∧ t.cmd = rest.drop (lenHi.toNat * 256 + lenLo.toNat)

/-- R140, whole, with R50 and R16: every packet is answered by exactly one response packet (`STATUS`, `RLEN`, data), whose
status is 0 or one of the four codes. A failing packet is consumed whole, leaves `H`, `BUF` and `COUNT` as they were,
records its code in `ERR` if that was 0, and is answered with its code and no data: the error is precise and the engine is at
a packet boundary again. A successful packet leaves `ERR`. -/
def Obligations.EachPacketIsAnsweredOnce : Prop :=
  ∀ (p : Packet) (rest : List Byte) (s : State), p.fits = true → s.cmd = p.bytes ++ rest →
    ∃ (t : State) (r : Response),
      Sys2Proof.Machine.step s = .next t ∧ t.cmd = rest ∧
      t.rsp = s.rsp ++ r.status :: BitVec.ofNat 8 r.data.length :: r.data ∧
      r.data.length ≤ 20 ∧ r.status.toNat ≤ 4 ∧
      (r.status = 0x00 → t.err = s.err) ∧
      (r.status ≠ 0x00 → r.data = [] ∧
        t = { s with
          cmd := rest, err := if s.err = 0 then r.status else s.err, rsp := s.rsp ++ [r.status, 0x00] })

/-- R151 and R165, with assumption log 3: with an empty command stream the engine is at rest and nothing changes; with a
part of a packet the step is refused. -/
def Obligations.RestAndIncompletePackets : Prop :=
  (∀ s : State, s.cmd = [] → Sys2Proof.Machine.step s = .next s) ∧
  (∀ (p : Packet) (n : Nat) (s : State), p.fits = true → 0 < n → n < p.bytes.length → s.cmd = p.bytes.take n →
    Sys2Proof.Machine.step s = .refused .incompletePacket)

/-! ## Whole-machine rules -/

/-- R14, R15, R16: every step from every state that has the invariant (`BUFLEN` at most 63, `COUNT` a multiple of 64,
`ERR` a code) gives a state that has it. -/
def Obligations.StepKeepsTheInvariant : Prop :=
  ∀ s t : State, s.Inv → Sys2Proof.Machine.step s = .next t → t.Inv

/-- R156, R13, R25: the state reset leaves, from whatever state, and the invariant holds in it. The five words are R13's
`IV`, which the spec supplies by its decision D27; that both streams are empty is the model's choice (assumption log 1). -/
def Obligations.ResetStateIsConstructed : Prop :=
  ∀ s : State, s.applyReset = State.reset ∧
    State.reset.h =
      #v[0x67452301, 0xEFCDAB89, 0x98BADCFE, 0x10325476, 0xC3D2E1F0] ∧
    State.reset.buf = [] ∧ State.reset.bufLen = 0 ∧ State.reset.count = 0 ∧ State.reset.err = 0 ∧
    State.reset.cmd = [] ∧ State.reset.rsp = [] ∧ State.reset.Inv

/-- R157: INIT and reset have the same effect on `H`, `BUF`, `BUFLEN` and `COUNT`; reset also clears `ERR` and
re-synchronises the command stream, which INIT leaves (that it empties the stream is the model's choice, assumption
log 1). -/
def Obligations.ResetAndInitDifferInTwoThings : Prop :=
  ∀ s : State, ∃ t : State, exec (.init []) s = .next t ∧
    t.h = s.applyReset.h ∧ t.buf = s.applyReset.buf ∧ t.bufLen = s.applyReset.bufLen ∧ t.count = s.applyReset.count ∧
    t.err = s.err ∧ s.applyReset.err = 0 ∧ t.cmd = s.cmd ∧ s.applyReset.cmd = []

/-- R12, R14, R15: who writes `H`, `BUF` and `COUNT`: a step that changes one of them executed one of the packets named for
it. And the sticky half of R16: once `ERR` is not 0, no step changes it (which packets write an `ERR` of 0 is not said here;
EachPacketIsAnsweredOnce says it). -/
def Obligations.OnlyNamedPacketsWriteHBufCount : Prop :=
  ∀ (p : Packet) (rest : List Byte) (s t : State), p.fits = true → s.cmd = p.bytes ++ rest →
    Sys2Proof.Machine.step s = .next t →
    (t.h ≠ s.h → p.rsv = 0x00 ∧ p.opc ∈ [0x01, 0x02, 0x04, 0x05]) ∧
    (t.buf ≠ s.buf → p.rsv = 0x00 ∧ p.opc ∈ [0x01, 0x02]) ∧
    (t.count ≠ s.count → p.rsv = 0x00 ∧ p.opc ∈ [0x01, 0x02, 0x06]) ∧
    (s.err ≠ 0 → t.err = s.err)

/-- R39: reads have no side effects: there is one response per read, the same whenever it is read, and any sequence of
reads between two commands changes nothing else. -/
def Obligations.ReadsHaveNoSideEffects : Prop :=
  ∀ s : State, ∃ f : Instr → List Byte,
    (∀ i ∈ [Instr.digest [], Instr.rdstate [], Instr.rdstatus []], exec i s = .next { s with rsp := s.rsp ++ f i }) ∧
    (∀ is : List Instr, (∀ i ∈ is, i ∈ [Instr.digest [], Instr.rdstate [], Instr.rdstatus []]) →
      execAll is s = .next { s with rsp := s.rsp ++ is.flatMap f })

/-- R16: no command's behaviour depends on `ERR`, but for RDSTATUS's response: with another value of `ERR`, every
command leaves the same `H`, `BUF`, `COUNT`, and sends the same bytes unless it is RDSTATUS. -/
def Obligations.NothingDependsOnErr : Prop :=
  ∀ (i : Instr) (s : State) (e : Byte), ∃ t u : State,
    exec i s = .next t ∧ exec i { s with err := e } = .next u ∧
    u.h = t.h ∧ u.buf = t.buf ∧ u.count = t.count ∧ u.cmd = t.cmd ∧ (i.opcode ≠ .rdstatus → u.rsp = t.rsp)

/-- R166, R22, R38: no value a command computes depends on what the streams hold (which responses are unread, which
packets are waiting): the registers it leaves and the bytes it sends are the same. -/
def Obligations.NothingDependsOnTheStreams : Prop :=
  ∀ (i : Instr) (s : State) (c r : List Byte), ∃ (t u : State) (d : List Byte),
    exec i s = .next t ∧ exec i { s with cmd := c, rsp := r } = .next u ∧ t.SameRegs u ∧
    t.cmd = s.cmd ∧ u.cmd = c ∧ t.rsp = s.rsp ++ d ∧ u.rsp = r ++ d

/-- R38, R50, R172: a run of whole packets: as many steps as packets consume the stream and append to the response stream a
sequence of as many response packets (which response answers which packet is EachPacketIsAnsweredOnce's, one step at a time);
and a run that starts with `ERR = 0` is free of errors, every status 0x00, exactly when `ERR = 0` at its end. That the run
never waits for the host to read a response, where R166 lets the engine wait, is the model's choice (assumption log 4), and so
is that any number of packets and responses can be outstanding (assumption log 1). -/
def Obligations.RunAnswersEveryPacket : Prop :=
  ∀ (ps : List Packet) (s : State), (∀ p ∈ ps, p.fits = true) →
    ∃ (t : State) (rs : List Response),
      core.run ps.length { s with cmd := packetStream ps } = .next t ∧
      t.cmd = [] ∧ t.rsp = s.rsp ++ responseStream rs ∧ rs.length = ps.length ∧
      (s.err = 0 → ((∀ r ∈ rs, r.status = 0x00) ↔ t.err = 0))

/-! ## Message-level rules -/

/-- R95: chunking invariance, with reads in between: at rest, any sequence of UPDATEs and read commands leaves the registers
as one UPDATE of the concatenated payloads would (a read's payload is empty). The one UPDATE may be longer than a packet. -/
def Obligations.ChunkingDoesNotMatter : Prop :=
  ∀ (is : List Instr) (s : State), s.bufLen ≤ 63 →
    (∀ i ∈ is, (∃ c : List Byte, i = .update c) ∨ i ∈ [Instr.digest [], Instr.rdstate [], Instr.rdstatus []]) →
    ∃ t u : State, execAll is s = .next t ∧ exec (.update (is.flatMap Instr.payload)) s = .next u ∧ t.SameRegs u

/-- R106, R95, R104: the streaming engine computes the one-shot Merkle-Damgard hash: from reset, the digest after any
sequence of UPDATEs is the chain of compressions from `IV` over the 64-byte slices of `pad(0, m)`, for the whole message
`m` of any length (2^64 bytes and more included). -/
def Obligations.StreamingDigestIsMerkleDamgard : Prop :=
  ∀ cs : List (List Byte), ∃ (t u : State) (d : HashState),
    let padded := pad 0 cs.flatten
    execAll (cs.map Instr.update) State.reset = .next t ∧ exec (.digest []) t = .next u ∧
    padded.length % 64 = 0 ∧
    (List.range (padded.length / 64)).foldlM
      (fun h k => compress (slice padded (64 * k) (64 * k + 64)) h) iv = .ok d ∧
    u.rsp = t.rsp ++ [0x00, 0x14] ++ stateBytes d

/-- R121: resumption: INIT, then LDSTATE and LDCOUNT in either order, with the state a whole-block message left, build
exactly the state that absorbing the message from reset leaves, on any engine. -/
def Obligations.ResumptionRebuildsTheState : Prop :=
  ∀ (m : List Byte) (s : State), m.length % 64 = 0 → m.length < 2 ^ 64 → ∃ a b c : State,
    exec (.update m) State.reset = .next a ∧ a.buf = [] ∧ a.count = BitVec.ofNat 64 m.length ∧
    execAll [.init [], .ldstate (stateBytes a.h), .ldcount (be64 (BitVec.ofNat 64 m.length))] s = .next b ∧
    execAll [.init [], .ldcount (be64 (BitVec.ofNat 64 m.length)), .ldstate (stateBytes a.h)] s = .next c ∧
    b.h = a.h ∧ b.buf = a.buf ∧ b.count = a.count ∧ c.SameRegs b

/-- R127: `hash(m)` on an engine at rest, of any history, completes, leaves the engine at rest, and returns the
Merkle-Damgard hash of `m`; so the digest does not depend on how the message is cut into packets. How the host drives the
engine and cuts the message is the model's choice (assumption logs 12 and 13). -/
def Obligations.HostHashIsTheDigest : Prop :=
  ∀ (m : List Byte) (s : State), s.Idle → ∃ (d : HashState) (t : State),
    hostHash m s = .ok (stateBytes d, t) ∧ t.Idle ∧
    (List.range ((pad 0 m).length / 64)).foldlM
      (fun h k => compress (slice (pad 0 m) (64 * k) (64 * k + 64)) h) iv = .ok d

/-- R130, with R129's flow: length extension: from the digest of `S ++ M` and the length of `S`, the host's `extend`
returns a digest and a suffix such that the suffix appended to `S ++ M` hashes to that digest, for any appendix. The
counter it loads must be below 2^64 (R129, R154). How the host drives the engine is the model's choice (assumption log
12). -/
def Obligations.LengthExtensionForges : Prop :=
  ∀ (secret known appendix d : List Byte) (s1 s2 s3 t1 : State), s1.Idle → s2.Idle → s3.Idle →
    secret.length + (pad secret.length known).length < 2 ^ 64 →
    hostHash (secret ++ known) s1 = .ok (d, t1) →
    ∃ (forged suffix : List Byte) (t2 t3 : State),
      hostExtend (hexText d) known appendix secret.length s2 = .ok ((hexText forged, suffix), t2) ∧
      suffix = padding (secret.length + known.length) ++ appendix ∧
      hostHash (secret ++ known ++ suffix) s3 = .ok (forged, t3)

/-- R125, R126: the text forms: 40 lowercase hexadecimal characters; reading them gives the words back; and
`stateFromHex` accepts exactly the strings of 40 hexadecimal digits, raising InvalidDigestEncoding on all others. -/
def Obligations.DigestTextRoundTrip : Prop :=
  (∀ w : HashState, stateFromHex (hexText (stateBytes w)) = .ok w ∧
    (hexText (stateBytes w)).length = 40 ∧
    ∀ c ∈ hexText (stateBytes w), c ∈ ['0', '1', '2', '3', '4', '5', '6', '7', '8', '9', 'a', 'b', 'c', 'd', 'e', 'f']) ∧
  (∀ s : List Char,
    (s.length = 40 ∧ (∀ c ∈ s, (hexDigit c).isSome = true) → ∃ w : HashState, stateFromHex s = .ok w) ∧
    (¬ (s.length = 40 ∧ (∀ c ∈ s, (hexDigit c).isSome = true)) →
      stateFromHex s = .error .invalidDigestEncoding))

/-! ## Instances and transport -/

/-- R153: instances share nothing: an event of engine `k` is that engine's own and leaves every other as it is. That engines are
positions of a list is the model's choice (assumption log 15). -/
def Obligations.EnginesAreIndependent : Prop :=
  ∀ (es fs : Engines) (k : Nat) (e : Event), es.apply k e = .next fs →
    fs.length = es.length ∧ (∀ j : Nat, j ≠ k → fs[j]? = es[j]?) ∧
    (∀ s : State, es[k]? = some s → ∃ t : State, applyEvent e s = .next t ∧ fs[k]? = some t)

/-- R58, R155: a clock edge the engine can show moves at most one byte each way: while `rst` is 1 it takes the reset
state; otherwise the command stream gains the port's byte exactly when valid and ready are both 1, the response stream
loses the byte the port offered exactly when valid and ready are both 1, and no register changes. Which edges an engine
can show is the model's reading (assumption logs 4 and 17); that the reset state's command stream is empty, so that a
reset drops whole packets already accepted, is the model's choice (assumption log 1). -/
def Obligations.ClockEdgeTransfersBytes : Prop :=
  ∀ (e : Edge) (s : State), e.possible s = true →
    (e.rst = true → clockEdge e s = State.reset ∧ e.cmdReady = false ∧ e.rspValid = false) ∧
    (e.rst = false →
      (clockEdge e s).SameRegs s ∧
      (clockEdge e s).cmd = (if e.cmdValid = true ∧ e.cmdReady = true then s.cmd ++ [e.cmdData] else s.cmd) ∧
      (e.rspValid = true → ∃ b : Byte, e.rspData s = some b ∧
        s.rsp = (if e.rspReady = true then b :: (clockEdge e s).rsp else (clockEdge e s).rsp)) ∧
      (e.rspValid = false → (clockEdge e s).rsp = s.rsp))
end

