-- ==== Sys2Proof/Laws/Bytes.lean ====
section
/-!
SUPPORT. Laws of byte sequences, big-endian forms, slices and blocks (00_scope.md R8).
-/

namespace Sys2Proof.Machine

@[simp] theorem fromBE_nil : fromBE [] = 0 := rfl

theorem foldl_be (bs : List Byte) (n : Nat) :
    bs.foldl (fun n b => n * 256 + b.toNat) n = n * 256 ^ bs.length + fromBE bs := by
  induction bs generalizing n with
  | nil => simp
  | cons b bs ih =>
    have h : fromBE (b :: bs) = b.toNat * 256 ^ bs.length + fromBE bs := by
      simpa [fromBE] using ih b.toNat
    rw [h, List.foldl_cons, ih, List.length_cons, pow_succ]
    ring

theorem fromBE_cons (b : Byte) (bs : List Byte) :
    fromBE (b :: bs) = b.toNat * 256 ^ bs.length + fromBE bs := by
  simpa [fromBE] using foldl_be bs b.toNat

/-- A sequence of `n` bytes spells a number below `256^n`. -/
theorem fromBE_lt (bs : List Byte) : fromBE bs < 256 ^ bs.length := by
  induction bs with
  | nil => simp
  | cons b bs ih =>
    rw [fromBE_cons, List.length_cons, pow_succ]
    have := b.isLt
    nlinarith

/-- The `n`-byte big-endian form spells the number's low bytes. -/
theorem fromBE_beBytes (n v : Nat) : fromBE (beBytes n v) = v % 256 ^ n := by
  induction n with
  | zero => simp [beBytes, Nat.mod_one]
  | succ n ih =>
    have h : v % 256 ^ (n + 1) = v % 256 ^ n + 256 ^ n * (v / 256 ^ n % 256) := by rw [pow_succ, Nat.mod_mul]
    rw [beBytes, fromBE_cons, beBytes_length, ih, BitVec.toNat_ofNat, h, Nat.mul_comm, Nat.add_comm]

@[simp] theorem be32_length (w : Word) : (be32 w).length = 4 := rfl
@[simp] theorem be64_length (v : DWord) : (be64 v).length = 8 := rfl
@[simp] theorem be16_length (n : Nat) : (be16 n).length = 2 := rfl
@[simp] theorem zeros_length (n : Nat) : (zeros n).length = n := List.length_replicate

theorem fromBE_be32 (w : Word) : fromBE (be32 w) = w.toNat := by
  simp only [be32, fromBE, List.foldl_cons, List.foldl_nil, BitVec.extractLsb'_toNat, Nat.shiftRight_eq_div_pow]
  have := w.isLt
  omega

theorem fromBE_be64 (v : DWord) : fromBE (be64 v) = v.toNat := by
  simp only [be64, fromBE, List.foldl_cons, List.foldl_nil, BitVec.extractLsb'_toNat, Nat.shiftRight_eq_div_pow]
  have := v.isLt
  omega

theorem fromBE_be16 {n : Nat} (h : n ≤ 65535) : fromBE (be16 n) = n := by
  simp only [be16, fromBE, List.foldl_cons, List.foldl_nil, BitVec.toNat_ofNat]
  omega

/-- The two length bytes are the only ones that spell their number. -/
theorem be16_fromBE (a b : Byte) : be16 (fromBE [a, b]) = [a, b] := by
  have := a.isLt
  have := b.isLt
  have ha : (fromBE [a, b]) / 256 = a.toNat := by simp [fromBE]; omega
  have hb : (fromBE [a, b]) % 256 = b.toNat := by simp [fromBE]; omega
  simp only [be16, ha]
  congr 1
  · simp
  · congr 1
    apply BitVec.eq_of_toNat_eq
    simpa using hb

theorem slice_length (bs : List Byte) (i j : Nat) : (slice bs i j).length = min (j - i) (bs.length - i) := by
  simp [slice]

theorem slice_drop (bs : List Byte) (k i j : Nat) : slice (bs.drop k) i j = slice bs (k + i) (k + j) := by
  simp only [slice, List.drop_drop]
  congr 1
  omega

/-! ## Blocks -/

theorem frontBlock_of_le {bs : List Byte} (h : 64 ≤ bs.length) :
    frontBlock bs = some ⟨bs.take 64, by simp [h]⟩ := dif_pos h

theorem frontBlock_of_lt {bs : List Byte} (h : bs.length < 64) : frontBlock bs = none := dif_neg (by omega)

/-- The first block of a sequence does not depend on what follows it. -/
theorem frontBlock_append {a : List Byte} (h : 64 ≤ a.length) (b : List Byte) :
    frontBlock (a ++ b) = frontBlock a := by
  rw [frontBlock_of_le h, frontBlock_of_le (by simp; omega)]
  congr 2
  exact List.take_append_of_le_length h

/-- Taking whole blocks of a whole-block sequence and then of what follows it. -/
theorem takeBlocks_append (m n : Nat) (a b : List Byte) (h : a.length = 64 * m) :
    takeBlocks (m + n) (a ++ b) = takeBlocks m a ++ takeBlocks n b := by
  induction m generalizing a with
  | zero =>
    have : a = [] := List.eq_nil_of_length_eq_zero (by simpa using h)
    simp [this, takeBlocks]
  | succ m ih =>
    have h64 : 64 ≤ a.length := by omega
    rw [Nat.add_right_comm, takeBlocks, takeBlocks, frontBlock_append h64, frontBlock_of_le h64]
    simp only [List.cons_append]
    rw [List.drop_append_of_le_length h64, ih _ (by simp; omega)]

/-- The chunks of a whole-block sequence followed by another are the chunks of the one, then of the other. -/
theorem chunks_append (a b : List Byte) (h : a.length % 64 = 0) : chunks (a ++ b) = chunks a ++ chunks b := by
  have hl : (a ++ b).length / 64 = a.length / 64 + b.length / 64 := by rw [List.length_append]; omega
  rw [chunks, hl, takeBlocks_append _ _ _ _ (by omega)]
  rfl

/-- A sequence with fewer than 64 bytes after its whole blocks has the chunks of those blocks. -/
theorem chunks_of_lt {bs : List Byte} (h : bs.length < 64) : chunks bs = [] := by
  rw [chunks, Nat.div_eq_of_lt h]
  rfl

theorem chunks_of_block (blk : Block) : chunks blk.bytes = [blk] := by
  have h := blk.size
  rw [chunks, h]
  simp only [takeBlocks, frontBlock_of_le h.ge]
  congr 1
  cases blk
  congr 1
  exact List.take_of_length_le (by simpa using h.le)

/-- The chunks of a sequence with a first block: that block, then the chunks of the rest. -/
theorem chunks_of_le {bs : List Byte} (h : 64 ≤ bs.length) :
    chunks bs = ⟨bs.take 64, by simp [h]⟩ :: chunks (bs.drop 64) := by
  have hl : bs.length / 64 = (bs.drop 64).length / 64 + 1 := by rw [List.length_drop]; omega
  rw [chunks, hl, takeBlocks, frontBlock_of_le h]
  rfl

/-- Every whole block is taken, and no more. -/
theorem chunks_length (bs : List Byte) : (chunks bs).length = bs.length / 64 := by
  suffices ∀ n bs, 64 * n ≤ List.length bs → (takeBlocks n bs).length = n from this _ _ (by omega)
  intro n
  induction n with
  | zero => intros; rfl
  | succ n ih =>
    intro bs h
    rw [takeBlocks, frontBlock_of_le (by omega)]
    simp only [List.length_cons]
    rw [ih _ (by simp; omega)]

end Sys2Proof.Machine
end

