-- ==== Sys2Proof/Laws/Compression.lean ====
section
/-!
SUPPORT. Laws of the compression function and of chains of compressions (42_compression.md R80, R84).
-/

namespace Sys2Proof.Machine

theorem compress_of_length {b : List Byte} (h : b.length = 64) (s : HashState) :
    compress b s = .ok (compressBlock ⟨b, h⟩ s) := dif_pos h

theorem compress_of_length_ne {b : List Byte} (h : b.length ≠ 64) (s : HashState) :
    compress b s = .error .invalidBlockLength := dif_neg h

/-- The compression of the first 64 bytes of a sequence, as the checked function and as the chunk. -/
theorem compress_take {b : List Byte} (h : 64 ≤ b.length) (s : HashState) :
    compress (b.take 64) s = .ok (compressBlock ⟨b.take 64, by simp [h]⟩ s) := by
  have hl : (b.take 64).length = 64 := by simp [h]
  exact compress_of_length hl s

@[simp] theorem compressBlocks_nil (t : HashState) : compressBlocks [] t = t := rfl

@[simp] theorem compressBlocks_cons (blk : Block) (blks : List Block) (t : HashState) :
    compressBlocks (blk :: blks) t = compressBlocks blks (compressBlock blk t) := by
  simp only [compressBlocks, List.foldl_cons]

/-- R84: a chain over two runs of blocks is the chain over the second from where the first ends. -/
theorem compressBlocks_append (as bs : List Block) (t : HashState) :
    compressBlocks (as ++ bs) t = compressBlocks bs (compressBlocks as t) := List.foldl_append ..

/-- The chain of checked compressions over the first `q` slices of 64 bytes is the chain over the blocks: none of them
raises. -/
theorem foldlM_compress_slices (q : Nat) (b : List Byte) (h : HashState) (hq : 64 * q ≤ b.length) :
    (List.range q).foldlM (fun h i => compress (slice b (64 * i) (64 * i + 64)) h) h =
      .ok (compressBlocks (takeBlocks q b) h) := by
  induction q generalizing b h with
  | zero => rfl
  | succ q ih =>
    have h64 : 64 ≤ b.length := by omega
    have hs : slice b (64 * 0) (64 * 0 + 64) = b.take 64 := by simp [slice]
    have hd : ∀ i, slice b (64 * (i + 1)) (64 * (i + 1) + 64) = slice (b.drop 64) (64 * i) (64 * i + 64) := by
      intro i
      rw [slice_drop]
      congr 1 <;> ring
    rw [List.range_succ_eq_map, List.foldlM_cons, hs, compress_take h64, takeBlocks, frontBlock_of_le h64]
    have key := ih (b.drop 64) (compressBlock ⟨b.take 64, by simp [h64]⟩ h) (by simp; omega)
    simp only [← hd] at key
    simp only [compressBlocks_cons, ← key, List.foldlM_map]
    simp only [bind, Except.bind]

/-- The same over all whole slices of a sequence. -/
theorem foldlM_compress_chunks (b : List Byte) (h : HashState) :
    (List.range (b.length / 64)).foldlM (fun h i => compress (slice b (64 * i) (64 * i + 64)) h) h =
      .ok (compressBlocks (chunks b) h) := foldlM_compress_slices _ _ _ (by omega)

end Sys2Proof.Machine
end

