-- ==== Sys2Proof/Laws/State.lean ====
section
/-!
SUPPORT. What each shared state operation does to each field, true by rfl and tagged for simp, so that no proof unfolds
a record update.
-/

namespace Sys2Proof.Machine

variable (s : State) (r : Response) (d bs : List Byte) (k : ErrorKind) (blk : Block) (n w : Nat)

@[simp] theorem State.emit_h : (s.emit r).h = s.h := rfl
@[simp] theorem State.emit_buf : (s.emit r).buf = s.buf := rfl
@[simp] theorem State.emit_count : (s.emit r).count = s.count := rfl
@[simp] theorem State.emit_err : (s.emit r).err = s.err := rfl
@[simp] theorem State.emit_cmd : (s.emit r).cmd = s.cmd := rfl
@[simp] theorem State.emit_rsp : (s.emit r).rsp = s.rsp ++ r.bytes := rfl

@[simp] theorem State.respond_h : (s.respond d).h = s.h := rfl
@[simp] theorem State.respond_buf : (s.respond d).buf = s.buf := rfl
@[simp] theorem State.respond_count : (s.respond d).count = s.count := rfl
@[simp] theorem State.respond_err : (s.respond d).err = s.err := rfl
@[simp] theorem State.respond_cmd : (s.respond d).cmd = s.cmd := rfl
@[simp] theorem State.respond_rsp : (s.respond d).rsp = s.rsp ++ (Response.success d).bytes := rfl

@[simp] theorem State.raiseError_h : (s.raiseError k).h = s.h := rfl
@[simp] theorem State.raiseError_buf : (s.raiseError k).buf = s.buf := rfl
@[simp] theorem State.raiseError_count : (s.raiseError k).count = s.count := rfl
@[simp] theorem State.raiseError_err : (s.raiseError k).err = recordError k s.err := rfl
@[simp] theorem State.raiseError_cmd : (s.raiseError k).cmd = s.cmd := rfl
@[simp] theorem State.raiseError_rsp : (s.raiseError k).rsp = s.rsp ++ (Response.failure k).bytes := rfl

@[simp] theorem absorbBlock_h : (absorbBlock s blk).h = compressBlock blk s.h := rfl
@[simp] theorem absorbBlock_buf : (absorbBlock s blk).buf = s.buf.drop 64 := rfl
@[simp] theorem absorbBlock_count : (absorbBlock s blk).count = s.count + 64 := rfl
@[simp] theorem absorbBlock_err : (absorbBlock s blk).err = s.err := rfl
@[simp] theorem absorbBlock_cmd : (absorbBlock s blk).cmd = s.cmd := rfl
@[simp] theorem absorbBlock_rsp : (absorbBlock s blk).rsp = s.rsp := rfl

@[simp] theorem State.send_h : (s.send bs).h = s.h := rfl
@[simp] theorem State.send_buf : (s.send bs).buf = s.buf := rfl
@[simp] theorem State.send_count : (s.send bs).count = s.count := rfl
@[simp] theorem State.send_err : (s.send bs).err = s.err := rfl
@[simp] theorem State.send_cmd : (s.send bs).cmd = s.cmd ++ bs := rfl
@[simp] theorem State.send_rsp : (s.send bs).rsp = s.rsp := rfl

@[simp] theorem State.withFetchWord_cmd : (s.withFetchWord n w).cmd = tableBytes n w ++ s.cmd := rfl

@[simp] theorem State.applyReset_eq : s.applyReset = State.reset := rfl
@[simp] theorem State.bufLen_eq : s.bufLen = s.buf.length := rfl

@[simp] theorem Response.success_status : (Response.success d).status = 0x00 := rfl
@[simp] theorem Response.success_data : (Response.success d).data = d := rfl
@[simp] theorem Response.failure_status : (Response.failure k).status = k.code := rfl
@[simp] theorem Response.failure_data : (Response.failure k).data = [] := rfl

/-- R16: a recorded error is 0 only if there was none and the code is 0, and no code is. -/
theorem ErrorKind.code_ne_zero (k : ErrorKind) : k.code ≠ 0x00 := by cases k <;> decide

/-- R135: codes 0x05 to 0xFF are never produced. -/
theorem ErrorKind.code_le (k : ErrorKind) : k.code.toNat ≤ 4 := by cases k <;> decide

/-- R16: sticky-first: a record that is there stays. -/
theorem recordError_of_ne {e : Byte} (h : e ≠ 0) : recordError k e = e := if_neg h

theorem recordError_zero : recordError k 0 = k.code := rfl

theorem recordError_ne_zero (e : Byte) : recordError k e ≠ 0 := by
  by_cases h : e = 0
  · rw [h, recordError_zero]; exact k.code_ne_zero
  · rw [recordError_of_ne k h]; exact h

theorem recordError_le {e : Byte} (h : e.toNat ≤ 4) : (recordError k e).toNat ≤ 4 := by
  by_cases h0 : e = 0
  · rw [h0, recordError_zero]; exact k.code_le
  · rwa [recordError_of_ne k h0]

end Sys2Proof.Machine
end

