-- ==== Sys2Proof/Laws/Accumulator.lean ====
section
/-!
SUPPORT. What the block loop of UPDATE does (43_accumulator.md R92, R93), said once.
-/

namespace Sys2Proof.Machine

/-- R93: the loop with exactly enough turns consumes every whole block of `buf`. -/
theorem absorbLoop_eq (q : Nat) (s : State) (hq : 64 * q ≤ s.buf.length) :
    absorbLoop q s =
      { s with h := compressBlocks (takeBlocks q s.buf) s.h
               count := s.count + BitVec.ofNat 64 (64 * q), buf := s.buf.drop (64 * q) } := by
  induction q generalizing s with
  | zero => simp [absorbLoop, takeBlocks]
  | succ q ih =>
    have h64 : 64 ≤ s.buf.length := by omega
    rw [absorbLoop, takeBlocks, frontBlock_of_le h64]
    simp only
    rw [ih _ (by simp; omega)]
    have hc : s.count + 64 + BitVec.ofNat 64 (64 * q) = s.count + BitVec.ofNat 64 (64 * (q + 1)) := by
      rw [Nat.mul_succ, BitVec.ofNat_add, BitVec.add_assoc, BitVec.add_comm 64]
      rfl
    simp only [absorbBlock, compressBlocks_cons, List.drop_drop, hc]
    congr 2
    omega

/-- R92, R93: everything the loop does: the chain of compressions, the counter, the rest of the bytes. -/
theorem absorb_eq (s : State) :
    absorb s =
      { s with h := compressBlocks (chunks s.buf) s.h
               count := s.count + BitVec.ofNat 64 (64 * (s.buf.length / 64))
               buf := s.buf.drop (64 * (s.buf.length / 64)) } :=
  absorbLoop_eq _ s (by omega)

@[simp] theorem absorb_h (s : State) : (absorb s).h = compressBlocks (chunks s.buf) s.h := by rw [absorb_eq]

@[simp] theorem absorb_count (s : State) :
    (absorb s).count = s.count + BitVec.ofNat 64 (64 * (s.buf.length / 64)) := by rw [absorb_eq]

@[simp] theorem absorb_buf (s : State) : (absorb s).buf = s.buf.drop (64 * (s.buf.length / 64)) := by rw [absorb_eq]

@[simp] theorem absorb_err (s : State) : (absorb s).err = s.err := by rw [absorb_eq]

@[simp] theorem absorb_cmd (s : State) : (absorb s).cmd = s.cmd := by rw [absorb_eq]

@[simp] theorem absorb_rsp (s : State) : (absorb s).rsp = s.rsp := by rw [absorb_eq]

/-- R14: fewer than 64 bytes are left. -/
theorem absorb_buf_length (s : State) : (absorb s).buf.length = s.buf.length % 64 := by
  rw [absorb_buf, List.length_drop]
  omega

/-- R92, R93: UPDATE as one state. -/
theorem execUpdate_eq (p : List Byte) (s : State) :
    execUpdate p s = .next
      { s with h := compressBlocks (chunks (s.buf ++ p)) s.h
               count := s.count + BitVec.ofNat 64 (64 * ((s.buf ++ p).length / 64))
               buf := (s.buf ++ p).drop (64 * ((s.buf ++ p).length / 64))
               rsp := s.rsp ++ [0x00, 0x00] } := by
  simp only [execUpdate, absorb_eq]
  rfl

end Sys2Proof.Machine
end

