-- ==== Sys2Proof/Laws/Decode.lean ====
section
/-!
SUPPORT. Laws of framing, decoding and encoding (30_encoding.md R45 to R49).
-/

namespace Sys2Proof

open Sys2Proof.Machine

@[simp] theorem Packet.bytes_length (p : Packet) : p.bytes.length = 4 + p.payload.length := by
  simp [Packet.bytes]
  omega

@[simp] theorem Instr.packet_payload (i : Instr) : i.packet.payload = i.payload := rfl

@[simp] theorem Instr.packet_rsv (i : Instr) : i.packet.rsv = 0x00 := rfl

@[simp] theorem Instr.packet_opc (i : Instr) : i.packet.opc = i.opcode.code := rfl

@[simp] theorem Instr.packet_fits (i : Instr) : i.packet.fits = i.fits := rfl

theorem Opcode.ofByte_code (op : Opcode) : Opcode.ofByte op.code = some op := by cases op <;> rfl

/-- R47: an `OPC` value selects a command only if it is that command's code. -/
theorem Opcode.ofByte_eq_some {b : Byte} {op : Opcode} (h : Opcode.ofByte b = some op) : b = op.code := by
  apply BitVec.eq_of_toNat_eq
  unfold Opcode.ofByte at h
  split at h <;> simp_all <;> subst h <;> rfl

/-- R47: 0x00 and 0x09 to 0xFF select no command. -/
theorem Opcode.ofByte_none {b : Byte} (h : b.toNat = 0 ∨ 8 < b.toNat) : Opcode.ofByte b = none := by
  unfold Opcode.ofByte
  split <;> first | rfl | omega

theorem Opcode.instr_opcode_payload (i : Instr) : i.opcode.instr i.payload = i := by cases i <;> rfl

@[simp] theorem Opcode.instr_payload (op : Opcode) (p : List Byte) : (op.instr p).payload = p := by cases op <;> rfl

@[simp] theorem Opcode.instr_opcode (op : Opcode) (p : List Byte) : (op.instr p).opcode = op := by cases op <;> rfl

/-- R49: a command's own packet selects it. -/
theorem decodePacket_packet (i : Instr) : decodePacket i.packet = .ok i := by
  simp [decodePacket, Opcode.ofByte_code, Opcode.instr_opcode_payload]

/-- R49: a packet that selects a command is that command's packet. -/
theorem decodePacket_ok {p : Packet} {i : Instr} (h : decodePacket p = .ok i) : p = i.packet := by
  unfold decodePacket at h
  split at h
  · rename_i hr
    split at h
    · rename_i op ho
      cases h
      obtain ⟨opc, rsv, payload⟩ := p
      obtain rfl : opc = op.code := Opcode.ofByte_eq_some ho
      obtain rfl : rsv = 0x00 := hr
      simp [Instr.packet]
    · cases h
  · cases h

/-- R46: framing gives back a packet from its bytes, whatever follows them. -/
theorem framePacket_bytes (p : Packet) (rest : List Byte) (h : p.fits = true) :
    framePacket (p.bytes ++ rest) = .ok (p, rest) := by
  have hl : p.payload.length ≤ 65535 := by simpa [Packet.fits] using h
  have hb := fromBE_be16 hl
  rw [be16] at hb
  simp [Packet.bytes, be16, framePacket, hb]

/-- R46: what framing takes off a stream is a packet's bytes. -/
theorem framePacket_ok {bs rest : List Byte} {p : Packet} (h : framePacket bs = .ok (p, rest)) :
    p.fits = true ∧ bs = p.bytes ++ rest := by
  unfold framePacket at h
  split at h
  · cases h
  · rename_i opc rsv hi lo tail
    simp only at h
    split at h
    · rename_i hlen
      cases h
      have hlt := fromBE_lt [hi, lo]
      have hlen' : (tail.take (fromBE [hi, lo])).length = fromBE [hi, lo] := by simpa using hlen
      constructor
      · simp only [Packet.fits, hlen', decide_eq_true_eq]
        simp at hlt
        omega
      · simp only [Packet.bytes, hlen', be16_fromBE]
        simp
    · cases h
  · cases h

/-- R165: a part of a packet, but not nothing, frames no packet and is not a packet boundary. -/
theorem framePacket_take (p : Packet) (n : Nat) (hf : p.fits = true) (h0 : 0 < n) (hn : n < p.bytes.length) :
    framePacket (p.bytes.take n) = .error .incompleteHeader ∨
      framePacket (p.bytes.take n) = .error .incompletePayload := by
  have hl : p.payload.length ≤ 65535 := by simpa [Packet.fits] using hf
  have hb := fromBE_be16 hl
  rw [be16] at hb
  rw [Packet.bytes_length] at hn
  match n, h0 with
  | 1, _ => left; simp [Packet.bytes, be16, framePacket]
  | 2, _ => left; simp [Packet.bytes, be16, framePacket]
  | 3, _ => left; simp [Packet.bytes, be16, framePacket]
  | n + 4, _ =>
    right
    have : ¬ p.payload.length ≤ n := by omega
    simp [Packet.bytes, be16, framePacket, hb, this]

end Sys2Proof
end

