-- ==== Sys2Proof/Laws/Exec.lean ====
section
/-!
SUPPORT. What the execution of a command can do, said once: it raises an error, or it is the one successful form of
its command. Everything said of all commands is derived from `exec_cases`.
-/

namespace Sys2Proof.Machine

/-- What a successful command leaves, before its response: the registers it writes. -/
inductive Success (s : State) : Instr → State → List Byte → Prop where
  | init : Success s (.init []) { s with h := iv, buf := [], count := 0 } []
  | update (p : List Byte) : Success s (.update p) (absorb { s with buf := s.buf ++ p }) []
  | digest : Success s (.digest []) s (stateBytes (finalize s))
  | compress (blk : Block) : Success s (.compress blk.bytes) { s with h := compressBlock blk s.h } []
  | ldstate (p : List Byte) (len : p.length = 20) : Success s (.ldstate p) { s with h := stateOperand p } []
  | ldcount (p : List Byte) (len : p.length = 8) (mult : (countOperand p).toNat % 64 = 0) :
      Success s (.ldcount p) { s with count := countOperand p } []
  | rdstate : Success s (.rdstate []) s (stateBytes s.h)
  | rdstatus : Success s (.rdstatus []) s (statusBytes s)

/-- R140, R50: a command raises an error or succeeds with a response; nothing else can happen. -/
theorem exec_cases (i : Instr) (s : State) :
    (∃ k, exec i s = .next (s.raiseError k)) ∨ (∃ u d, exec i s = .next (u.respond d) ∧ Success s i u d) := by
  cases i with
  | init p =>
    by_cases h : p.length = 0
    · obtain rfl := List.eq_nil_of_length_eq_zero h
      exact .inr ⟨_, _, rfl, .init⟩
    · exact .inl ⟨_, if_neg h⟩
  | update p => exact .inr ⟨_, _, rfl, .update p⟩
  | digest p =>
    by_cases h : p.length = 0
    · obtain rfl := List.eq_nil_of_length_eq_zero h
      exact .inr ⟨_, _, rfl, .digest⟩
    · exact .inl ⟨_, if_neg h⟩
  | compress p =>
    by_cases h : p.length = 64
    · refine .inr ⟨_, _, ?_, .compress ⟨p, h⟩⟩
      simp only [exec, execCompress, compress_of_length h]
    · refine .inl ⟨.invalidBlockLength, ?_⟩
      simp only [exec, execCompress, compress_of_length_ne h]
  | ldstate p =>
    by_cases h : p.length = 20
    · exact .inr ⟨_, _, if_pos h, .ldstate p h⟩
    · exact .inl ⟨_, if_neg h⟩
  | ldcount p =>
    by_cases h : p.length = 8
    · by_cases hm : (countOperand p).toNat % 64 = 0
      · exact .inr ⟨_, _, (if_pos h).trans (if_pos hm), .ldcount p h hm⟩
      · exact .inl ⟨_, (if_pos h).trans (if_neg hm)⟩
    · exact .inl ⟨_, if_neg h⟩
  | rdstate p =>
    by_cases h : p.length = 0
    · obtain rfl := List.eq_nil_of_length_eq_zero h
      exact .inr ⟨_, _, rfl, .rdstate⟩
    · exact .inl ⟨_, if_neg h⟩
  | rdstatus p =>
    by_cases h : p.length = 0
    · obtain rfl := List.eq_nil_of_length_eq_zero h
      exact .inr ⟨_, _, rfl, .rdstatus⟩
    · exact .inl ⟨_, if_neg h⟩

/-- R51: the data of a successful command is 0, 10 or 20 bytes. -/
theorem Success.data_length {s u : State} {i : Instr} {d : List Byte} (h : Success s i u d) : d.length ≤ 20 := by
  cases h <;> simp [stateBytes, statusBytes]

/-- R16: a successful command does not write `ERR`. -/
theorem Success.err {s u : State} {i : Instr} {d : List Byte} (h : Success s i u d) : u.err = s.err := by
  cases h <;> simp

/-- A command leaves the command stream to the step. -/
theorem Success.cmd {s u : State} {i : Instr} {d : List Byte} (h : Success s i u d) : u.cmd = s.cmd := by
  cases h <;> simp

/-- R50: the response is all a command sends. -/
theorem Success.rsp {s u : State} {i : Instr} {d : List Byte} (h : Success s i u d) : u.rsp = s.rsp := by
  cases h <;> simp

/-- R51: a chaining value is 20 bytes. -/
theorem stateBytes_length (t : HashState) : (stateBytes t).length = 20 := by simp [stateBytes]

end Sys2Proof.Machine
end

