-- ==== Sys2Proof/Laws/Step.lean ====
section
/-!
SUPPORT. What a step can do, said once (20_memory.md R37, R38).
-/

namespace Sys2Proof.Machine

/-- R37: with a whole packet at the front of the command stream, the step is that packet's execution. -/
theorem step_of_packet (p : Packet) (rest : List Byte) (s : State) (hf : p.fits = true)
    (h : s.cmd = p.bytes ++ rest) : step s = execPacket p { s with cmd := rest } := by
  simp only [step, stepStream, h, framePacket_bytes p rest hf]

/-- R151: with nothing on the command stream the engine is at rest. -/
theorem step_of_nil (s : State) (h : s.cmd = []) : step s = .next s := by
  simp only [step, stepStream, h, framePacket]

/-- R49, R52: the execution of a packet raises an error or is the successful form of its command. -/
theorem execPacket_cases (p : Packet) (s : State) :
    (∃ k, execPacket p s = .next (s.raiseError k)) ∨
      (∃ i u d, p = i.packet ∧ execPacket p s = .next (u.respond d) ∧ Success s i u d) := by
  unfold execPacket
  cases h : decodePacket p with
  | error e => exact .inl ⟨_, rfl⟩
  | ok i =>
    obtain ⟨k, hk⟩ | ⟨u, d, hu, hs⟩ := exec_cases i s
    · exact .inl ⟨k, hk⟩
    · exact .inr ⟨i, u, d, decodePacket_ok h, hu, hs⟩

/-- A step that answers a next state is at rest, or executed the packet at the front of the command stream. -/
theorem step_cases {s t : State} (h : step s = .next t) :
    (s.cmd = [] ∧ t = s) ∨
      (∃ p rest, p.fits = true ∧ s.cmd = p.bytes ++ rest ∧ execPacket p { s with cmd := rest } = .next t) := by
  unfold step stepStream at h
  split at h
  · rename_i p rest hp
    obtain ⟨hf, hb⟩ := framePacket_ok hp
    exact .inr ⟨p, rest, hf, hb, h⟩
  · rename_i he
    cases h
    refine .inl ⟨?_, rfl⟩
    unfold framePacket at he
    split at he
    · assumption
    · simp only at he
      split at he <;> cases he
    · cases he
  · cases h

end Sys2Proof.Machine
end

