-- ==== Sys2Proof/Laws/Caller.lean ====
section
/-!
SUPPORT. Laws of the host's side: a response packet read back, one command issued to an engine at rest, and how a message
is cut into payloads (30_encoding.md R50, R57; 43_accumulator.md R96).
-/

namespace Sys2Proof.Machine

/-- R50: a response packet with nothing after it is read back as it was sent. -/
theorem parseResponse_bytes (r : Response) (h : r.data.length ≤ 20) : parseResponse r.bytes = some (r, []) := by
  cases r with
  | mk status data =>
    have len : (BitVec.ofNat 8 data.length).toNat = data.length := by simp only [BitVec.toNat_ofNat] at h ⊢; omega
    simp [Response.bytes, parseResponse, len]

/-- A command that succeeds on an engine at rest, as the host sees it: its response data, and the engine at rest again. -/
theorem issue_of_success {i : Instr} {s u : State} {d : List Byte} (idle : s.Idle) (fits : i.fits = true)
    (run : exec i s = .next (u.respond d)) (succ : Success s i u d) :
    issue i s = .ok (d, { u with rsp := [] }) ∧ ({ u with rsp := [] } : State).Idle := by
  obtain ⟨cmd, rsp⟩ := idle
  have back : ({ s.send (encode i) with cmd := [] } : State) = s := by simp [State.send, ← cmd]
  have taken : step (s.send (encode i)) = .next (u.respond d) := by
    rw [step_of_packet i.packet [] (s.send (encode i)) (by simpa using fits) (by simp [State.send, cmd, encode]),
      execPacket, decodePacket_packet, back]
    exact run
  refine ⟨?_, succ.cmd.trans cmd, rfl⟩
  have none : u.rsp = [] := succ.rsp.trans rsp
  simp only [issue, sendPacket, taken, State.respond_rsp, none, List.nil_append,
    parseResponse_bytes _ (show (Response.success d).data.length ≤ 20 from succ.data_length)]
  rfl

theorem issueAll_cons (i j : Instr) (is : List Instr) (s : State) :
    issueAll (i :: j :: is) s =
      match issue i s with
      | .ok (_, s') => issueAll (j :: is) s'
      | .error e => .error e := rfl

/-- R57: the pieces of a message are the message. -/
theorem cutMessage_flatten (n : Nat) (m : List Byte) : (cutMessage n m).flatten = m := by
  induction n generalizing m with
  | zero => simp [cutMessage]
  | succ n ih => unfold cutMessage; split <;> simp [ih]

/-- R57: no message is cut into no piece at all. -/
theorem cutMessage_ne_nil (n : Nat) (m : List Byte) : cutMessage n m ≠ [] := by
  cases n with
  | zero => simp [cutMessage]
  | succ n => unfold cutMessage; split <;> simp

/-- R57: every piece of a message has a payload's length. -/
theorem length_of_mem_cutMessage (n : Nat) (m : List Byte) (h : m.length ≤ 65535 * n + 65535) :
    ∀ p ∈ cutMessage n m, p.length ≤ 65535 := by
  induction n generalizing m with
  | zero => simp only [cutMessage, List.mem_singleton]; rintro p rfl; omega
  | succ n ih =>
    intro p hp
    unfold cutMessage at hp
    split at hp
    · obtain rfl := List.mem_singleton.mp hp
      assumption
    · obtain rfl | hp := List.mem_cons.mp hp
      · simp
      · exact ih _ (by simp; omega) p hp

end Sys2Proof.Machine
end

