-- ==== Sys2Proof/Laws/Finalizer.lean ====
section
/-!
SUPPORT. Laws of the padding (44_finalization.md R100 to R103).
-/

namespace Sys2Proof.Machine

/-- R101: after the marker and the zero bytes, the length field ends a block. -/
theorem zcount_mod (total : Nat) : (total + 1 + zcount total) % 64 = 56 := by
  unfold zcount
  omega

theorem zcount_lt (total : Nat) : zcount total < 64 := Nat.mod_lt _ (by decide)

/-- R101: the count depends on the total modulo 64 only. -/
theorem zcount_congr {a b : Nat} (h : a % 64 = b % 64) : zcount a = zcount b := by
  rw [zcount, zcount, h]

/-- R100: the padding proper is `9 + z` bytes. -/
@[simp] theorem padding_length (total : Nat) : (padding total).length = 9 + zcount total := by
  simp [padding]
  omega

@[simp] theorem pad_length (hb : Nat) (data : List Byte) :
    (pad hb data).length = data.length + 9 + zcount (hb + data.length) := by
  simp [pad]
  omega

/-- R104: the padding proper depends on the total modulo 2^64 only. -/
theorem padding_congr {a b : Nat} (h : a % 2 ^ 64 = b % 2 ^ 64) : padding a = padding b := by
  have hz : zcount a = zcount b := zcount_congr (by omega)
  have hl : BitVec.ofNat 64 (a * 8) = BitVec.ofNat 64 (b * 8) := by
    apply BitVec.eq_of_toNat_eq
    simp only [BitVec.toNat_ofNat]
    omega
  rw [padding, padding, hz, hl]

end Sys2Proof.Machine
end

