-- ==== Sys2Proof/Laws/PerInstr.lean ====
section
/-!
SUPPORT. Statements about all commands as syntax, one lemma per constructor. HeaderMatch: the header of a command's
packet has its row's match value under the mask, and its `LEN` field is the payload's length (30_encoding.md R46, R47).
-/

namespace Sys2Proof.Laws

theorem header_of_code (code : Byte) (p : List Byte) (h : p.length ≤ 65535) :
    (Packet.header { opc := code, rsv := 0x00, payload := p }) &&& headerMask = code ++ (0 : BitVec 24) ∧
      ((Packet.header { opc := code, rsv := 0x00, payload := p }).extractLsb' 0 16).toNat = p.length := by
  constructor
  · simp only [Packet.header, headerMask]
    ext i hi
    have hm : (0xFFFF0000 : Word).getLsbD i = decide (16 ≤ i) := by
      have : ∀ i : Fin 32, (0xFFFF0000 : Word).getLsbD i = decide (16 ≤ i.val) := by decide
      exact this ⟨i, hi⟩
    simp only [← BitVec.getLsbD_eq_getElem, BitVec.getLsbD_and, hm, BitVec.getLsbD_append]
    by_cases h16 : i < 16
    · simp [h16, show ¬ 16 ≤ i by omega, show i < 24 by omega]
    · by_cases h24 : i < 24
      · simp [h16, h24, show i - 16 < 8 by omega, show 16 ≤ i by omega]
      · simp [h16, h24, show ¬ i - 16 < 8 by omega, show 16 ≤ i by omega, show i - 16 - 8 = i - 24 by omega]
  · simp only [Packet.header, BitVec.extractLsb'_toNat, BitVec.toNat_append, BitVec.toNat_ofNat]
    rw [Nat.shiftRight_zero, Nat.or_mod_two_pow]
    simp [Nat.shiftLeft_eq]
    omega

/-- The statement of a command as syntax. -/
def HeaderMatch.Statement (i : Instr) : Prop :=
  i.fits = true →
    i.packet.header &&& headerMask = i.opcode.matchWord ∧ (i.packet.header.extractLsb' 0 16).toNat = i.payload.length

theorem HeaderMatch.init (p : List Byte) : HeaderMatch.Statement (.init p) :=
  fun h => header_of_code 0x01 p (of_decide_eq_true h)

theorem HeaderMatch.update (p : List Byte) : HeaderMatch.Statement (.update p) :=
  fun h => header_of_code 0x02 p (of_decide_eq_true h)

theorem HeaderMatch.digest (p : List Byte) : HeaderMatch.Statement (.digest p) :=
  fun h => header_of_code 0x03 p (of_decide_eq_true h)

theorem HeaderMatch.compress (p : List Byte) : HeaderMatch.Statement (.compress p) :=
  fun h => header_of_code 0x04 p (of_decide_eq_true h)

theorem HeaderMatch.ldstate (p : List Byte) : HeaderMatch.Statement (.ldstate p) :=
  fun h => header_of_code 0x05 p (of_decide_eq_true h)

theorem HeaderMatch.ldcount (p : List Byte) : HeaderMatch.Statement (.ldcount p) :=
  fun h => header_of_code 0x06 p (of_decide_eq_true h)

theorem HeaderMatch.rdstate (p : List Byte) : HeaderMatch.Statement (.rdstate p) :=
  fun h => header_of_code 0x07 p (of_decide_eq_true h)

theorem HeaderMatch.rdstatus (p : List Byte) : HeaderMatch.Statement (.rdstatus p) :=
  fun h => header_of_code 0x08 p (of_decide_eq_true h)

end Sys2Proof.Laws
end

