-- ==== Sys2Proof/Laws/Schedule.lean ====
section
/-!
SUPPORT. Laws of the rotator and of the message schedule (40_word_arithmetic.md R66; 41_message_schedule.md R75, R76).
-/

namespace Sys2Proof.Machine

/-- R66: the engine's rotator is the library's left rotation, for every amount it can be given. -/
theorem rotl32_eq_rotateLeft (w : Word) (n : Fin 32) : rotl32 w n = w.rotateLeft n.val := by
  rw [BitVec.rotateLeft_def, rotl32, Nat.mod_eq_of_lt n.isLt]

@[simp] theorem blockWords_length (blk : Block) : (blockWords blk).length = 16 := by simp [blockWords]

/-- R76: extending the words leaves those already written as they are. -/
theorem extendWords_getElem? (n : Nat) (x : List Word) (i : Nat) (h : i < x.length) :
    (extendWords n x)[i]? = x[i]? := by
  induction n generalizing x with
  | zero => rfl
  | succ n ih => rw [extendWords, ih _ (by simp; omega), List.getElem?_append_left h]

/-- R77: the array's word `i` is the list's. -/
theorem expand_getElem (blk : Block) (i : Nat) (h : i < 80) :
    (expand blk)[i] = (extendWords 64 (blockWords blk)).getD i 0 := by
  have hl : i < (extendWords 64 (blockWords blk)).length := by simp [extendWords_length]; omega
  rw [List.getD_eq_getElem _ _ hl]
  simp only [expand, Vector.getElem_mk, List.getElem_toArray]

end Sys2Proof.Machine
end

