-- ==== Sys2Proof/Tests/Slice0.lean ====
section
/-!
SUPPORT. The model's own tests. Expected values are the spec's: 95_test_vectors.md (sections 1 to 10) and the encoding
tables of 30_encoding.md (R46, R47, R50), written out by hand. Then the witnesses: for each obligation with hypotheses, a
concrete case that meets them, clause by clause, at the ends of their ranges.
-/

namespace Sys2Proof.Tests

set_option Elab.async false

open Sys2Proof Sys2Proof.Machine

/-! ## Helpers -/

/-- A test's reading of an outcome: a next state with a property. -/
def nextHas (o : Host.Outcome State Fault Refusal) (p : State → Bool) : Bool :=
  match o with
  | .next t => p t
  | _ => false

/-- The engine after reset with a given command stream. -/
def withCmd (bs : List Byte) : State := { State.reset with cmd := bs }

/-- An engine whose every register differs from its reset value: the state words of digest S1, "abc" in the buffer,
`COUNT = 64`, `ERR = 1`. -/
def busy : State :=
  { h := #v[0xDA39A3EE, 0x5E6B4B0D, 0x3255BFEF, 0x95601890, 0xAFD80709], buf := [0x61, 0x62, 0x63], count := 64
    err := 1, cmd := [], rsp := [] }

/-- The block E of 95_test_vectors.md section 4, the one block of the empty message. -/
def blockE : List Byte := 0x80 :: zeros 63

/-! ## WellFormed: for each check an ill-formed term, which it refuses (R46, R47) -/

theorem test_wf_init : (Instr.init []).wellFormed = true ∧ (Instr.init [0xAA]).wellFormed = false := by decide +kernel
theorem test_wf_digest : (Instr.digest []).wellFormed = true ∧ (Instr.digest [0]).wellFormed = false := by decide +kernel
theorem test_wf_rdstate : (Instr.rdstate []).wellFormed = true ∧ (Instr.rdstate [0]).wellFormed = false := by decide +kernel
theorem test_wf_rdstatus : (Instr.rdstatus []).wellFormed = true ∧ (Instr.rdstatus [0]).wellFormed = false := by decide +kernel

theorem test_wf_compress :
    (Instr.compress (zeros 64)).wellFormed = true ∧ (Instr.compress (zeros 63)).wellFormed = false ∧
      (Instr.compress (zeros 65)).wellFormed = false := by decide +kernel

theorem test_wf_ldstate :
    (Instr.ldstate (zeros 20)).wellFormed = true ∧ (Instr.ldstate (zeros 19)).wellFormed = false ∧
      (Instr.ldstate (zeros 21)).wellFormed = false := by decide +kernel

theorem test_wf_ldcount :
    (Instr.ldcount (zeros 8)).wellFormed = true ∧ (Instr.ldcount (zeros 4)).wellFormed = false ∧
      (Instr.ldcount (zeros 9)).wellFormed = false := by decide +kernel

theorem test_wf_update :
    (Instr.update (zeros 65535)).wellFormed = true ∧ (Instr.update (zeros 65536)).wellFormed = false := by
  simp only [Instr.wellFormed, Instr.opcode, Instr.payload, Opcode.legalLen, zeros, List.length_replicate]; decide

theorem test_fits : (Instr.init (zeros 65535)).fits = true ∧ (Instr.init (zeros 65536)).fits = false := by
  simp only [Instr.fits, Instr.payload, zeros, List.length_replicate]; decide

/-! ## Decoding: a packet of every command written out from R46 and R47 -/

theorem test_decode_init : decode [0x01, 0x00, 0x00, 0x00] = .ok (.init [], []) := by decide +kernel

theorem test_decode_update :
    decode [0x02, 0x00, 0x00, 0x06, 0x6E, 0x61, 0x6E, 0x61, 0x6E, 0x61] =
      .ok (.update [0x6E, 0x61, 0x6E, 0x61, 0x6E, 0x61], []) := by decide +kernel

/-- Two packets back to back: the first is taken, the second remains. -/
theorem test_decode_digest :
    decode [0x03, 0x00, 0x00, 0x00, 0x08, 0x00, 0x00, 0x00] = .ok (.digest [], [0x08, 0x00, 0x00, 0x00]) := by decide +kernel

theorem test_decode_compress : decode ([0x04, 0x00, 0x00, 0x40] ++ blockE) = .ok (.compress blockE, []) := by decide +kernel

theorem test_decode_ldstate :
    decode [0x05, 0x00, 0x00, 0x14, 0x41, 0x3B, 0x79, 0xC1, 0x08, 0xA4, 0xE1, 0x4D, 0x23, 0xDE, 0xDA, 0x13,
        0x95, 0x74, 0xCA, 0xCC, 0xFE, 0x6B, 0xD9, 0xA4] =
      .ok (.ldstate [0x41, 0x3B, 0x79, 0xC1, 0x08, 0xA4, 0xE1, 0x4D, 0x23, 0xDE, 0xDA, 0x13,
        0x95, 0x74, 0xCA, 0xCC, 0xFE, 0x6B, 0xD9, 0xA4], []) := by decide +kernel

theorem test_decode_ldcount :
    decode [0x06, 0x00, 0x00, 0x08, 0x00, 0x00, 0x00, 0x00, 0x00, 0x00, 0x00, 0x40] =
      .ok (.ldcount [0x00, 0x00, 0x00, 0x00, 0x00, 0x00, 0x00, 0x40], []) := by decide +kernel

theorem test_decode_rdstate : decode [0x07, 0x00, 0x00, 0x00] = .ok (.rdstate [], []) := by decide +kernel
theorem test_decode_rdstatus : decode [0x08, 0x00, 0x00, 0x00] = .ok (.rdstatus [], []) := by decide +kernel

/-- `LEN = 0x03E8 = 1000`: the high byte of `LEN` comes first (R46; program P3, packet 2). -/
theorem test_decode_len_high_byte_first :
    decode ([0x02, 0x00, 0x03, 0xE8] ++ List.replicate 1000 0x41) = .ok (.update (List.replicate 1000 0x41), []) := by
  decide +kernel

/-- R49: the reserved byte is checked before the opcode; 0x00, 0x09 and 0xFF select no command. -/
theorem test_decode_rejects :
    decode [0x01, 0x01, 0x00, 0x00] = .error .reservedByte ∧ decode [0x09, 0x01, 0x00, 0x00] = .error .reservedByte ∧
      decode [0x00, 0x00, 0x00, 0x00] = .error .unassignedOpcode ∧
      decode [0x09, 0x00, 0x00, 0x02, 0xAA, 0xBB] = .error .unassignedOpcode ∧
      decode [0xFF, 0x00, 0x00, 0x00] = .error .unassignedOpcode := by decide +kernel

theorem test_decode_incomplete :
    decode [] = .error .noPacket ∧ decode [0x01, 0x00, 0x00] = .error .incompleteHeader ∧
      decode [0x06, 0x00, 0x00, 0x08, 0x00] = .error .incompletePayload := by decide +kernel

/-- The host's word: the row's match value, `LEN` included, with the payload in the bits above the header. -/
theorem test_table_word :
    decodeTableWord 32 0x03000000 = some (.digest []) ∧
      decodeTableWord 40 0x6102000001 = some (.update [0x61]) ∧
      decodeTableWord 32 0x04000002 = some (.compress [0x00, 0x00]) ∧ decodeTableWord 32 0x09000000 = none := by
  decide +kernel

/-- A word placed where the step fetches is the next step's command (R120: RDSTATUS after reset). -/
theorem test_fetch_word :
    nextHas (step (State.reset.withFetchWord 32 0x08000000))
      (· == { State.reset with rsp := [0x00, 0x0A, 0, 0, 0, 0, 0, 0, 0, 0, 0, 0] }) = true := by decide +kernel

/-! ## The commands (95_test_vectors.md sections 8 and 10) -/

/-- P5, commands 15 and 16: INIT restores `H`, `BUF`, `COUNT` and leaves `ERR`. -/
theorem test_init :
    nextHas (exec (.init []) busy) (· == { State.reset with err := 1, rsp := [0x00, 0x00] }) = true := by decide +kernel

/-- P5, command 8: INIT with one payload byte. -/
theorem test_init_bad_length :
    nextHas (exec (.init [0xAA]) State.reset) (· == { State.reset with err := 3, rsp := [0x03, 0x00] }) = true := by decide +kernel

/-- Section 8: 64 bytes 0x61 on `COUNT = 2^64 - 64`: one compression, and `COUNT` wraps to 0. -/
theorem test_update_wraps :
    nextHas (exec (.update (List.replicate 64 0x61)) { State.reset with count := 0xFFFFFFFFFFFFFFC0 })
      (· == { State.reset with
        h := #v[0xDA4968EB, 0x2E377C1F, 0x884E8F52, 0x83524BEB, 0xE74EBDBD], count := 0
        rsp := [0x00, 0x00] }) = true := by decide +kernel

/-- P2, commands 4 and 5: less than a block is only appended. -/
theorem test_update_appends :
    nextHas (exec (.update [0x20]) { State.reset with buf := [0x6E, 0x61, 0x6E, 0x61, 0x6E, 0x61] })
      (· == { State.reset with buf := [0x6E, 0x61, 0x6E, 0x61, 0x6E, 0x61, 0x20], rsp := [0x00, 0x00] }) = true := by decide +kernel

/-- P2, command 7 (S6): the digest of "nanana batman", and the state is kept. -/
theorem test_digest :
    let s := { State.reset with
      buf := [0x6E, 0x61, 0x6E, 0x61, 0x6E, 0x61, 0x20, 0x62, 0x61, 0x74, 0x6D, 0x61, 0x6E] }
    nextHas (exec (.digest []) s)
      (· == { s with rsp := [0x00, 0x14, 0xAC, 0xC5, 0x05, 0xB7, 0x82, 0xAF, 0xE5, 0x62, 0x38, 0x32, 0x2E, 0xF8, 0xF5,
        0x83, 0xF4, 0xF3, 0x68, 0x6B, 0x27, 0xCA] }) = true := by decide +kernel

/-- Section 8, R104: with `COUNT = 2^61` the length field is 0, so DIGEST compresses block E, the empty message's block. -/
theorem test_digest_length_wraps : pad (2 ^ 61) [] = blockE ∧ pad 0 [] = blockE := by decide +kernel

/-- P5, command 12: block E from `IV` gives the words of S1; `BUF`, `COUNT` and `ERR` are kept. -/
theorem test_compress :
    nextHas (exec (.compress blockE) { busy with h := iv }) (· == { busy with rsp := [0x00, 0x00] }) = true := by
  decide +kernel

/-- P5, command 2: 63 bytes. -/
theorem test_compress_bad_length :
    nextHas (exec (.compress (zeros 63)) { State.reset with buf := [0x61, 0x62, 0x63] })
      (· == { State.reset with buf := [0x61, 0x62, 0x63], err := 1, rsp := [0x01, 0x00] }) = true := by decide +kernel

/-- P4, command 2. -/
theorem test_ldstate :
    nextHas (exec (.ldstate [0x41, 0x3B, 0x79, 0xC1, 0x08, 0xA4, 0xE1, 0x4D, 0x23, 0xDE, 0xDA, 0x13,
        0x95, 0x74, 0xCA, 0xCC, 0xFE, 0x6B, 0xD9, 0xA4]) State.reset)
      (· == { State.reset with
        h := #v[0x413B79C1, 0x08A4E14D, 0x23DEDA13, 0x9574CACC, 0xFE6BD9A4], rsp := [0x00, 0x00] }) = true := by decide +kernel

/-- P5, command 4: 19 bytes, after an earlier error: the first code stays in `ERR`. -/
theorem test_ldstate_bad_length :
    nextHas (exec (.ldstate (zeros 19)) busy) (· == { busy with rsp := [0x02, 0x00] }) = true := by decide +kernel

/-- Section 8: the largest legal counter value. -/
theorem test_ldcount :
    nextHas (exec (.ldcount [0xFF, 0xFF, 0xFF, 0xFF, 0xFF, 0xFF, 0xFF, 0xC0]) State.reset)
      (· == { State.reset with count := 0xFFFFFFFFFFFFFFC0, rsp := [0x00, 0x00] }) = true := by decide +kernel

/-- P5, command 9: 65 is not a multiple of 64; the length is checked first (R118). -/
theorem test_ldcount_errors :
    nextHas (exec (.ldcount [0, 0, 0, 0, 0, 0, 0, 0x41]) State.reset)
      (· == { State.reset with err := 4, rsp := [0x04, 0x00] }) = true ∧
    nextHas (exec (.ldcount [0, 0, 0, 0x41]) State.reset)
      (· == { State.reset with err := 3, rsp := [0x03, 0x00] }) = true := by decide +kernel

/-- P1, command 3. -/
theorem test_rdstate :
    nextHas (exec (.rdstate []) State.reset)
      (· == { State.reset with rsp := [0x00, 0x14, 0x67, 0x45, 0x23, 0x01, 0xEF, 0xCD, 0xAB, 0x89, 0x98, 0xBA, 0xDC, 0xFE,
        0x10, 0x32, 0x54, 0x76, 0xC3, 0xD2, 0xE1, 0xF0] }) = true := by decide +kernel

/-- P3, command 5, with `ERR` as P5's command 11 reports it: `ERR`, `BUFLEN`, `COUNT` in this order. -/
theorem test_rdstatus :
    let s := { State.reset with err := 1, buf := List.replicate 18 0x41, count := 1216 }
    nextHas (exec (.rdstatus []) s)
      (· == { s with rsp := [0x00, 0x0A, 0x01, 0x12, 0x00, 0x00, 0x00, 0x00, 0x00, 0x00, 0x04, 0xC0] }) = true := by
  decide +kernel

/-- R49, R141 (section 8): COMPRESS with `RSV = 1` and a wrong length: the reserved byte is checked first; the payload is
consumed, and the next packet follows it. -/
theorem test_step_illegal_packet :
    nextHas (step (withCmd ([0x04, 0x01, 0x00, 0x03, 0xAA, 0xBB, 0xCC] ++ [0x07, 0x00, 0x00, 0x00])))
      (· == { withCmd [0x07, 0x00, 0x00, 0x00] with err := 3, rsp := [0x03, 0x00] }) = true := by decide +kernel

/-! ## The units (95_test_vectors.md sections 2 to 4, 6) -/

theorem test_add32 : add32 0x67452301 0xEFCDAB89 = 0x5712CE8A ∧ add32 0xFFFFFFFF 1 = 0 := by decide +kernel

theorem test_rotl32 :
    rotl32 0x67452301 5 = 0xE8A4602C ∧ rotl32 0xEFCDAB89 30 = 0x7BF36AE2 ∧ rotl32 0x00000001 31 = 0x80000000 := by decide +kernel

/-- Section 3, the row that runs through all eight input combinations, in each of the four ranges. -/
theorem test_round_functions :
    roundF 19 0xAAAAAAAA 0xCCCCCCCC 0xF0F0F0F0 = 0xD8D8D8D8 ∧ roundF 20 0xAAAAAAAA 0xCCCCCCCC 0xF0F0F0F0 = 0x96969696 ∧
      roundF 59 0xAAAAAAAA 0xCCCCCCCC 0xF0F0F0F0 = 0xE8E8E8E8 ∧
      roundF 60 0xAAAAAAAA 0xCCCCCCCC 0xF0F0F0F0 = 0x96969696 := by decide +kernel

/-- Section 5, round 0 of block E from `IV`. -/
theorem test_round_zero :
    roundStep 0 0x80000000 (startWorking iv) =
      { a := 0x1FB498B3, b := 0x67452301, c := 0x7BF36AE2, d := 0x98BADCFE, e := 0x10325476 } := by decide +kernel

/-- Section 4, block B, whose byte `j` has value `j`. -/
theorem test_schedule :
    let x := expand ⟨(List.range 64).map (BitVec.ofNat 8), by simp⟩
    x[1] = 0x04050607 ∧ x[16] = 0x38383838 ∧ x[79] = 0xC47818A4 := by decide +kernel

/-- R101, section 6: the last length with one padding block and the first with two. -/
theorem test_zcount : zcount 0 = 55 ∧ zcount 55 = 0 ∧ zcount 56 = 63 ∧ zcount 63 = 56 ∧ zcount 23 = 32 := by decide +kernel

/-- Section 9: case is accepted on input and lowercase on output; 39 characters and a prefix "0x" are refused. -/
theorem test_text_codec :
    stateFromHex "DA39A3EE5E6B4B0D3255BFEF95601890afd80709".toList =
      .ok #v[0xDA39A3EE, 0x5E6B4B0D, 0x3255BFEF, 0x95601890, 0xAFD80709] ∧
    stateFromHex "0xda39a3ee5e6b4b0d3255bfef95601890afd807".toList = .error .invalidDigestEncoding ∧
    stateFromHex "da39a3ee5e6b4b0d3255bfef95601890afd8070".toList = .error .invalidDigestEncoding ∧
    hexText [0x00, 0x0F, 0xAC, 0xFF] = "000facff".toList := by decide +kernel

/-- P4: the padding proper of the flow with a secret of 10 bytes and a suffix of 13, and its counter value; then the
commands, LDCOUNT's packet among them. -/
theorem test_extend :
    (pad 10 (zeros 13)).drop 13 = 0x80 :: (zeros 39 ++ [0xB8]) ∧ 10 + (pad 10 (zeros 13)).length = 64 ∧
      (extendCommands iv 64 [0x3B]).map Instr.opcode = [.init, .ldstate, .ldcount, .update] ∧
      (extendCommands iv 64 [0x3B])[2]?.map encode = some [0x06, 0, 0, 8, 0, 0, 0, 0, 0, 0, 0, 0x40] := by decide +kernel

/-- P2, command 2: the assembler; and an odd number of hexadecimal digits is no operand. -/
theorem test_assemble :
    (assemble .update (.text "nanana".toList)).map encode =
      some [0x02, 0x00, 0x00, 0x06, 0x6E, 0x61, 0x6E, 0x61, 0x6E, 0x61] ∧
    (assemble .ldcount (.decimal 64)).map encode = some [0x06, 0, 0, 8, 0, 0, 0, 0, 0, 0, 0, 0x40] ∧
    assemble .compress (.hex ['0', '1', '2']) = none ∧ assemble .digest (.text []) = none := by decide +kernel

/-! ## Witnesses

`witness_X` shows a concrete case that meets the hypotheses of the obligation X, one for each of its clauses, at the ends of
the ranges. -/

theorem witness_InitConstructsHasher : ([] : List Byte).length = 0 ∧ ([0x00] : List Byte).length ≠ 0 := by decide

theorem witness_UpdateRunsTheBlockLoop :
    (zeros 65535).length ≤ 65535 ∧ (busy.buf ++ zeros 60).length < 64 ∧ 64 ≤ (busy.buf ++ zeros 61).length := by
  simp only [zeros, List.length_append, List.length_replicate]; decide

theorem witness_UpdateClosedForm :
    ({ busy with buf := zeros 63 } : State).bufLen ≤ 63 ∧ (zeros 65535).length ≤ 65535 := by
  simp only [State.bufLen, zeros, List.length_replicate]; decide

theorem witness_EmptyUpdateIsNoOp : State.reset.bufLen ≤ 63 ∧ ({ busy with buf := zeros 63 } : State).bufLen ≤ 63 := by
  decide

theorem witness_DigestReportsFinalization :
    busy.count.toNat % 64 = 0 ∧ ([] : List Byte).length = 0 ∧ ([0x00] : List Byte).length ≠ 0 := by decide

theorem witness_CompressReplacesChainingValue :
    blockE.length = 64 ∧ (zeros 63).length ≠ 64 ∧ (zeros 65).length ≠ 64 := by decide

theorem witness_LdstateLoadsFiveWords :
    (zeros 20).length = 20 ∧ (zeros 19).length ≠ 20 ∧ (zeros 21).length ≠ 20 := by decide

theorem witness_LdcountLoadsMultiplesOf64 :
    (([0xFF, 0xFF, 0xFF, 0xFF, 0xFF, 0xFF, 0xFF, 0xC0] : List Byte).length = 8 ∧
      fromBE [0xFF, 0xFF, 0xFF, 0xFF, 0xFF, 0xFF, 0xFF, 0xC0] % 64 = 0) ∧
    (([0, 0, 0, 0, 0, 0, 0, 0x3F] : List Byte).length = 8 ∧ fromBE [0, 0, 0, 0, 0, 0, 0, 0x3F] % 64 ≠ 0) ∧
    (zeros 7).length ≠ 8 ∧ (zeros 9).length ≠ 8 := by decide

theorem witness_RdstateReturnsChainingValue : ([] : List Byte).length = 0 ∧ ([0x00] : List Byte).length ≠ 0 := by decide
theorem witness_RdstatusReportsRegisters : ([] : List Byte).length = 0 ∧ ([0x00] : List Byte).length ≠ 0 := by decide

/-- The smallest and the largest amount, each with the lowest and the highest bit. -/
theorem witness_RotatorMovesEveryBit : 0 < (1 : Fin 32).val ∧ 0 < (31 : Fin 32).val ∧ 0 < 32 ∧ 31 < 32 := by decide

theorem witness_ScheduleFollowsRecurrence : (16 ≤ 16 ∧ 16 < 80) ∧ 16 ≤ 79 ∧ 79 < 80 := by decide

theorem witness_CompressionIsEightyRounds : blockE.length = 64 ∧ 0 < 80 ∧ 79 < 80 ∧ (zeros 63).length ≠ 64 := by decide

/-- A write of four bytes at the end of the block, and one that fills it; bytes below and above a write of two. -/
theorem witness_BlockReadAfterWrite :
    60 + 4 ≤ 64 ∧ 0 + 64 ≤ 64 ∧ ((0 < 1 ∨ 1 + 2 ≤ 0) ∧ (3 < 1 ∨ 1 + 2 ≤ 3)) := by decide

theorem witness_ZeroCountIsLeast : (0 + 1 + 55) % 64 = 56 ∧ (55 + 1 + 0) % 64 = 56 ∧ (56 + 1 + 63) % 64 = 56 := by decide

theorem witness_PaddingLawHolds : ([] : List Byte).length < 1 ∧ 55 < (pad 0 []).length - 8 := by decide

theorem witness_FinalizeRunsOneOrTwoBlocks :
    State.reset.count.toNat % 64 = 0 ∧ State.reset.bufLen ≤ 55 ∧
    (({ State.reset with buf := zeros 55 } : State).bufLen ≤ 55) ∧
    (({ State.reset with buf := zeros 56 } : State).bufLen ≤ 63 ∧ 56 ≤ ({ State.reset with buf := zeros 56 } : State).bufLen) ∧
    (({ State.reset with buf := zeros 63 } : State).bufLen ≤ 63 ∧
      56 ≤ ({ State.reset with buf := zeros 63 } : State).bufLen) := by decide

theorem witness_StateBytesRoundTrip : (zeros 20).length = 20 := by decide
theorem witness_CountBytesRoundTrip : (zeros 8).length = 8 := by decide

/-- The longest payload there is, and an empty one. -/
theorem witness_DecodeOfEncodeIsTheCommand :
    (Instr.update (zeros 65535)).fits = true ∧ (Instr.rdstatus []).fits = true := by
  simp only [Instr.fits, Instr.payload, zeros, List.length_replicate]; decide

theorem witness_DecodedBytesAreTheEncoding : decode [0x02, 0x00, 0x00, 0x01, 0x20] = .ok (.update [0x20], []) := by
  decide +kernel

theorem witness_OpcodeMapFollowsTheTable :
    (Instr.init []).packet.fits = true ∧ (zeros 63).length ≤ 65535 ∧
      Opcode.compress.legalLen (zeros 63).length = false ∧ Opcode.ldstate.legalLen (zeros 21).length = false ∧
      Opcode.ldcount.legalLen (zeros 7).length = false ∧ Opcode.digest.legalLen (zeros 1).length = false := by decide

/-- Whole packets; a packet cut before its first byte and before its last. -/
theorem witness_SerialParserFramesPackets :
    (∀ p ∈ [(Instr.init []).packet, (Instr.update [0x20]).packet], p.fits = true) ∧
      0 < (Instr.update [0x20]).packet.bytes.length ∧ 4 < (Instr.update [0x20]).packet.bytes.length := by decide

theorem witness_StepRunsTheDecodedCommand :
    (Instr.update [0x20]).fits = true ∧
      (withCmd [0x02, 0x00, 0x00, 0x01, 0x20, 0x03]).cmd = encode (.update [0x20]) ++ [0x03] := by decide

/-- One packet for each of the five reasons, at the ends of the ranges. -/
theorem witness_IllegalPacketsRaiseIllegalCommand :
    (withCmd [0x01, 0x01, 0, 0]).cmd = ({ opc := 0x01, rsv := 0x01, payload := [] } : Packet).bytes ++ [] ∧
    (0x01 : Byte) ≠ 0x00 ∧
    (withCmd [0x00, 0x00, 0, 0]).cmd = ({ opc := 0x00, rsv := 0x00, payload := [] } : Packet).bytes ++ [] ∧
    (withCmd [0x09, 0x00, 0, 0]).cmd = ({ opc := 0x09, rsv := 0x00, payload := [] } : Packet).bytes ++ [] ∧
    0x09 ≤ (0x09 : Byte).toNat ∧ 0x09 ≤ (0xFF : Byte).toNat ∧
    (withCmd [0x08, 0x00, 0, 1, 0xAA]).cmd = ({ opc := 0x08, rsv := 0x00, payload := [0xAA] } : Packet).bytes ++ [] ∧
    (0x08 : Byte) ∈ ([0x01, 0x03, 0x07, 0x08] : List Byte) ∧ ([0xAA] : List Byte).length ≠ 0 ∧
    (withCmd [0x06, 0x00, 0, 1, 0xAA]).cmd = ({ opc := 0x06, rsv := 0x00, payload := [0xAA] } : Packet).bytes ++ [] ∧
    ([0xAA] : List Byte).length ≠ 8 ∧ (∀ n ∈ [0, 1], (⟨0x01, 0x00, zeros n⟩ : Packet).fits = true) := by decide

/-- A packet that fails each check of the chain and one that passes them all. -/
theorem witness_FirstFailingCheckDecides :
    (withCmd [0x04, 0x01, 0, 0]).cmd = ({ opc := 0x04, rsv := 0x01, payload := [] } : Packet).bytes ++ [] ∧
    (withCmd [0xFF, 0x00, 0, 0]).cmd = ({ opc := 0xFF, rsv := 0x00, payload := [] } : Packet).bytes ++ [] ∧
    (withCmd ([0x04, 0, 0, 63] ++ zeros 63)).cmd = ({ opc := 0x04, rsv := 0, payload := zeros 63 } : Packet).bytes ++ [] ∧
    (withCmd ([0x05, 0, 0, 21] ++ zeros 21)).cmd = ({ opc := 0x05, rsv := 0, payload := zeros 21 } : Packet).bytes ++ [] ∧
    (withCmd [0x01, 0x00, 0, 1, 0]).cmd = ({ opc := 0x01, rsv := 0x00, payload := [0] } : Packet).bytes ++ [] ∧
    (withCmd [0x06, 0x00, 0, 0]).cmd = ({ opc := 0x06, rsv := 0x00, payload := [] } : Packet).bytes ++ [] ∧
    (withCmd [0x06, 0, 0, 8, 0, 0, 0, 0, 0, 0, 0, 1]).cmd =
      ({ opc := 0x06, rsv := 0, payload := [0, 0, 0, 0, 0, 0, 0, 1] } : Packet).bytes ++ [] ∧
    fromBE [0, 0, 0, 0, 0, 0, 0, 1] % 64 ≠ 0 ∧
    (withCmd [0x01, 0x00, 0, 0]).cmd = ({ opc := 0x01, rsv := 0x00, payload := [] } : Packet).bytes ++ [] ∧
    (∀ n ∈ [0, 1, 8, 21, 63], (⟨0x01, 0x00, zeros n⟩ : Packet).fits = true) := by decide +kernel

/-- A header with `LEN = 2` and its two payload bytes, an unassigned opcode and a reserved byte. -/
theorem witness_FramingDependsOnLenAlone :
    (withCmd [0x77, 0x88, 0x00, 0x02, 0xAA, 0xBB]).cmd = 0x77 :: 0x88 :: 0x00 :: 0x02 :: [0xAA, 0xBB] ∧
      (0x00 : Byte).toNat * 256 + (0x02 : Byte).toNat ≤ ([0xAA, 0xBB] : List Byte).length := by decide

/-- A packet answered with 0x00 and one answered with 0x03. -/
theorem witness_EachPacketIsAnsweredOnce :
    (Instr.init []).packet.fits = true ∧ (withCmd [0x01, 0, 0, 0]).cmd = (Instr.init []).packet.bytes ++ [] ∧
    nextHas (step (withCmd [0x01, 0, 0, 0])) (fun t => t.rsp == (Response.success []).bytes) = true ∧
    nextHas (step (withCmd [0x00, 0, 0, 0])) (fun t => t.rsp == (Response.failure .illegalCommand).bytes) = true := by
  decide

theorem witness_RestAndIncompletePackets :
    State.reset.cmd = [] ∧ (Instr.update [0x20]).packet.fits = true ∧
      (∀ n ∈ [1, 4], 0 < n ∧ n < (Instr.update [0x20]).packet.bytes.length ∧
        (withCmd ((Instr.update [0x20]).packet.bytes.take n)).cmd = (Instr.update [0x20]).packet.bytes.take n) := by
  decide

/-- A state with a full buffer, the largest counter and the largest code, and its step. -/
theorem witness_StepKeepsTheInvariant :
    let s : State := { h := iv, buf := zeros 63, count := 0xFFFFFFFFFFFFFFC0, err := 4, cmd := [0x08, 0, 0, 0], rsp := [] }
    s.Inv ∧ nextHas (Sys2Proof.Machine.step s) (fun t => t.cmd == []) = true := by decide

/-- Steps that change `H`, `BUF` and `COUNT`, and one in a state with `ERR` not 0. -/
theorem witness_OnlyNamedPacketsWriteHBufCount :
    (Instr.init []).packet.fits = true ∧
    ({ busy with cmd := [0x01, 0, 0, 0] } : State).cmd = (Instr.init []).packet.bytes ++ [] ∧ busy.err ≠ 0 ∧
    nextHas (Sys2Proof.Machine.step { busy with cmd := [0x01, 0, 0, 0] })
      (fun t => t.h != busy.h && t.buf != busy.buf && t.count != busy.count) = true := by decide

theorem witness_ReadsHaveNoSideEffects :
    ∀ i ∈ [Instr.rdstatus [], Instr.digest [], Instr.rdstate []],
      i ∈ [Instr.digest [], Instr.rdstate [], Instr.rdstatus []] := by decide

theorem witness_NothingDependsOnErr : (Instr.digest []).opcode ≠ .rdstatus := by decide

/-- The empty run, and a run with an error in it. -/
theorem witness_RunAnswersEveryPacket :
    (∀ p ∈ [(Instr.init []).packet, ({ opc := 0x09, rsv := 0, payload := [] } : Packet)], p.fits = true) ∧
      State.reset.err = 0 := by decide

/-- A full buffer, two UPDATEs and a read between them. -/
theorem witness_ChunkingDoesNotMatter :
    ({ State.reset with buf := zeros 63 } : State).bufLen ≤ 63 ∧
    ∀ i ∈ [Instr.update [0x61], Instr.rdstatus [], Instr.update []],
      (∃ c : List Byte, i = .update c) ∨ i ∈ [Instr.digest [], Instr.rdstate [], Instr.rdstatus []] := by
  simp [State.bufLen, zeros]

theorem witness_ResumptionRebuildsTheState :
    ([] : List Byte).length % 64 = 0 ∧ (zeros 64).length % 64 = 0 ∧ (zeros 64).length < 2 ^ 64 := by decide

theorem witness_HostHashIsTheDigest : State.reset.Idle ∧ busy.Idle := by decide

/-- The empty secret and the empty suffix, on an engine after reset: the hash of the empty message completes. -/
theorem witness_LengthExtensionForges :
    State.reset.Idle ∧ busy.Idle ∧ ([] : List Byte).length + (pad ([] : List Byte).length []).length < 2 ^ 64 ∧
    hostHash ([] ++ []) State.reset = .ok (stateBytes (finalize State.reset), State.reset) := by
  refine ⟨⟨rfl, rfl⟩, ⟨rfl, rfl⟩, by decide, ?_⟩
  have init := (issue_of_success (i := .init []) (s := State.reset) ⟨rfl, rfl⟩ rfl rfl .init).1
  have update := (issue_of_success (i := .update []) (s := State.reset) ⟨rfl, rfl⟩ rfl rfl (.update [])).1
  have digest := (issue_of_success (i := .digest []) (s := State.reset) ⟨rfl, rfl⟩ rfl rfl .digest).1
  rw [show hostHash ([] ++ []) State.reset = issueAll [.init [], .update [], .digest []] State.reset from rfl,
    issueAll_cons, init]
  simp only
  rw [issueAll_cons]
  erw [update]
  exact digest

/-- Forty digits; 39 and 41 digits; 40 characters of which one is no digit. -/
theorem witness_DigestTextRoundTrip :
    ((List.replicate 40 'F').length = 40 ∧ ∀ c ∈ List.replicate 40 'F', (hexDigit c).isSome = true) ∧
    (List.replicate 39 'F').length ≠ 40 ∧ (List.replicate 41 'F').length ≠ 40 ∧
    ¬ ∀ c ∈ 'g' :: List.replicate 39 'F', (hexDigit c).isSome = true :=
  ⟨⟨List.length_replicate, fun c h => by rw [List.eq_of_mem_replicate h]; decide⟩, by simp, by simp,
    fun h => absurd (h 'g' List.mem_cons_self) (by decide)⟩

/-- An event of the last of two engines, and one of an engine that does not exist. -/
theorem witness_EnginesAreIndependent :
    let es : Engines := [State.reset, busy]
    (match es.apply 1 .reset with | .next fs => fs == [State.reset, State.reset] | _ => false) = true ∧
    (match es.apply 2 .reset with | .next fs => fs == es | _ => false) = true ∧ es[1]? = some busy := by decide

/-- An edge in reset; one that moves a byte each way; one that offers nothing. -/
theorem witness_ClockEdgeTransfersBytes :
    ({ rst := true, cmdValid := true, cmdReady := false, cmdData := 0, rspValid := false, rspReady := true } : Edge).possible
      busy = true ∧
    ({ rst := false, cmdValid := true, cmdReady := true, cmdData := 0x01, rspValid := true, rspReady := true } :
      Edge).possible { busy with rsp := [0x00] } = true ∧
    ({ rst := false, cmdValid := false, cmdReady := true, cmdData := 0, rspValid := false, rspReady := false } :
      Edge).possible busy = true := by decide

end Sys2Proof.Tests
end

section
/-!
PROOFS. The primitives of the block space (00_scope.md R8; 20_memory.md R30): a read after a write of the same bytes,
and the bytes a write leaves as they were.
-/

namespace Sys2Proof.Machine

/-- A write leaves the old bytes below its address, its own bytes, and the old bytes above them, in that order. -/
theorem memWrite_bytes (blk : Block) (addr n v : Nat) (inside : addr + n ≤ 64) :
    (memWrite blk addr n v inside).bytes = blk.bytes.take addr ++ beBytes n v ++ blk.bytes.drop (addr + n) := rfl

/-- The front bytes a write keeps are exactly those below its address. -/
theorem take_length_of_inside (blk : Block) {addr n : Nat} (inside : addr + n ≤ 64) :
    (blk.bytes.take addr).length = addr :=
  List.length_take_of_le (by rw [blk.size]; omega)

/-- The bytes of the written indices are the written value's big-endian form. -/
theorem slice_memWrite (blk : Block) (addr n v : Nat) (inside : addr + n ≤ 64) :
    slice (memWrite blk addr n v inside).bytes addr (addr + n) = beBytes n v := by
  rw [slice, memWrite_bytes, Nat.add_sub_cancel_left, List.append_assoc,
    List.drop_left' (take_length_of_inside blk inside), List.take_left' (beBytes_length n v)]

theorem memRead_memWrite (blk : Block) (addr n v : Nat) (inside : addr + n ≤ 64) :
    memRead (memWrite blk addr n v inside) addr n = v % 256 ^ n := by
  rw [memRead, slice_memWrite, fromBE_beBytes]

theorem memWrite_getElem?_below (blk : Block) {addr n j : Nat} (v : Nat) (inside : addr + n ≤ 64) (below : j < addr) :
    (memWrite blk addr n v inside).bytes[j]? = blk.bytes[j]? := by
  have front : j < (blk.bytes.take addr).length := by rwa [take_length_of_inside blk inside]
  rw [memWrite_bytes, List.append_assoc, List.getElem?_append_left front, List.getElem?_take_of_lt below]

theorem memWrite_getElem?_above (blk : Block) {addr n j : Nat} (v : Nat) (inside : addr + n ≤ 64)
    (above : addr + n ≤ j) : (memWrite blk addr n v inside).bytes[j]? = blk.bytes[j]? := by
  have written : (blk.bytes.take addr ++ beBytes n v).length = addr + n := by
    rw [List.length_append, take_length_of_inside blk inside, beBytes_length]
  rw [memWrite_bytes, List.getElem?_append_right (written.le.trans above), written, List.getElem?_drop,
    Nat.add_sub_cancel' above]

end Sys2Proof.Machine

open Sys2Proof.Machine

/-- Settles O18: the written bytes read back as the value's big-endian form, and the bytes below and above them are
those of the old block. -/
theorem blockReadAfterWrite : Obligations.BlockReadAfterWrite := by
  intro blk addr n v inside
  refine ⟨memRead_memWrite blk addr n v inside, fun j outside => ?_⟩
  obtain below | above := outside
  · exact memWrite_getElem?_below blk v inside below
  · exact memWrite_getElem?_above blk v inside above

end

section
/-!
PROOFS. What every command and every step keeps (10_state.md R13 to R16, R25; 60_exceptions.md R135), and which packets
write which register (R12, R14, R15).
-/

namespace Sys2Proof.Machine

variable {s t u : State} {i : Instr} {d : List Byte}

/-- R25: reset satisfies the invariant. -/
theorem State.reset_inv : State.reset.Inv := by decide

/-- R15: adding whole blocks keeps the counter a multiple of 64, also when it wraps. -/
theorem count_add_blocks_mod (c : DWord) (q : Nat) (hc : c.toNat % 64 = 0) :
    (c + BitVec.ofNat 64 (64 * q)).toNat % 64 = 0 := by
  rw [BitVec.toNat_add, BitVec.toNat_ofNat]
  omega

/-- R140: an error keeps the invariant, since it only records a code. -/
theorem State.Inv.raiseError (hs : s.Inv) (k : ErrorKind) : (s.raiseError k).Inv := by
  obtain ⟨hbuf, hcount, herr⟩ := hs
  exact ⟨hbuf, hcount, recordError_le k herr⟩

/-- R14, R15: a successful command leaves a short buffer and a counter of whole blocks, and does not write `ERR`. -/
theorem Success.inv (hu : Success s i u d) (hs : s.Inv) : u.Inv := by
  obtain ⟨hbuf, hcount, herr⟩ := hs
  rw [← hu.err] at herr
  cases hu with
  | init => exact ⟨Nat.zero_le _, rfl, herr⟩
  | update p =>
    refine ⟨?_, ?_, herr⟩
    · rw [absorb_buf_length]
      omega
    · rw [absorb_count]
      exact count_add_blocks_mod _ _ hcount
  | ldcount p len mult => exact ⟨hbuf, mult, herr⟩
  | digest | compress | ldstate | rdstate | rdstatus => exact ⟨hbuf, hcount, herr⟩

theorem execPacket_inv {p : Packet} (hs : s.Inv) (h : execPacket p s = .next t) : t.Inv := by
  obtain ⟨k, hk⟩ | ⟨i, u, d, -, hu, success⟩ := execPacket_cases p s
  · cases hk.symm.trans h
    exact hs.raiseError k
  · cases hu.symm.trans h
    exact success.inv hs

theorem step_inv (hs : s.Inv) (h : step s = .next t) : t.Inv := by
  obtain ⟨-, rfl⟩ | ⟨p, rest, -, -, hp⟩ := step_cases h
  · exact hs
  · exact execPacket_inv (s := { s with cmd := rest }) hs hp

/-! ## Who writes a register -/

/-- R12: only INIT, UPDATE, COMPRESS and LDSTATE write `H`. -/
theorem Success.opcode_of_h_ne (hu : Success s i u d) (changed : u.h ≠ s.h) :
    i.opcode ∈ [.init, .update, .compress, .ldstate] := by
  cases hu with
  | init | update | compress | ldstate => simp [Instr.opcode]
  | digest | ldcount | rdstate | rdstatus => exact absurd rfl changed

/-- R14: only INIT and UPDATE write `BUF`. -/
theorem Success.opcode_of_buf_ne (hu : Success s i u d) (changed : u.buf ≠ s.buf) :
    i.opcode ∈ [.init, .update] := by
  cases hu with
  | init | update => simp [Instr.opcode]
  | digest | compress | ldstate | ldcount | rdstate | rdstatus => exact absurd rfl changed

/-- R15: only INIT, UPDATE and LDCOUNT write `COUNT`. -/
theorem Success.opcode_of_count_ne (hu : Success s i u d) (changed : u.count ≠ s.count) :
    i.opcode ∈ [.init, .update, .ldcount] := by
  cases hu with
  | init | update | ldcount => simp [Instr.opcode]
  | digest | compress | ldstate | rdstate | rdstatus => exact absurd rfl changed

end Sys2Proof.Machine

open Sys2Proof Sys2Proof.Machine

/-- Settles O37: an error records a code and nothing else, and each successful command keeps the three bounds. -/
theorem stepKeepsTheInvariant : Obligations.StepKeepsTheInvariant :=
  fun _ _ hs h => step_inv hs h

/-- Settles O38: the reset values are those of `State.reset`, and they satisfy the invariant. -/
theorem resetStateIsConstructed : Obligations.ResetStateIsConstructed :=
  fun s => ⟨s.applyReset_eq, rfl, rfl, rfl, rfl, rfl, rfl, rfl, State.reset_inv⟩

/-- Settles O40: a packet that raises an error changes `ERR` alone, and only if it is 0; one that succeeds is its command's
own packet, so its `RSV` is 0 and its `OPC` is the code of one of that register's writers. -/
theorem onlyNamedPacketsWriteHBufCount : Obligations.OnlyNamedPacketsWriteHBufCount := by
  intro p rest s t fits front next
  rw [step_of_packet p rest s fits front] at next
  obtain ⟨k, raised⟩ | ⟨i, u, d, rfl, done, success⟩ := execPacket_cases p { s with cmd := rest }
  · cases raised.symm.trans next
    exact ⟨absurd rfl, absurd rfl, absurd rfl, recordError_of_ne k⟩
  · cases done.symm.trans next
    exact ⟨fun changed => ⟨rfl, List.mem_map_of_mem (f := Opcode.code) (success.opcode_of_h_ne changed)⟩,
      fun changed => ⟨rfl, List.mem_map_of_mem (f := Opcode.code) (success.opcode_of_buf_ne changed)⟩,
      fun changed => ⟨rfl, List.mem_map_of_mem (f := Opcode.code) (success.opcode_of_count_ne changed)⟩,
      fun _ => success.err⟩

end

section
/-!
PROOFS. What a command's behaviour does not depend on: `ERR` (10_state.md R16) and the two streams (R22;
70_reset_and_hazards.md R166). Both come from one comparison of two runs whose `H`, `BUF` and `COUNT` agree.
-/

namespace Sys2Proof.Machine

/-- R11, R14, R15: two states agree in the registers that commands compute with; their `ERR` and streams may differ. -/
structure State.SameData (s t : State) : Prop where
  h : t.h = s.h
  buf : t.buf = s.buf
  count : t.count = s.count

/-- R49 steps 3 and 4: a command's own checks read its payload alone, so whether it raises an error, and which one, is
the same in every state. -/
theorem exec_uniform (i : Instr) :
    (∃ k, ∀ s, exec i s = .next (s.raiseError k)) ∨
      (∀ s, ∃ u d, exec i s = .next (u.respond d) ∧ Success s i u d) := by
  cases i with
  | init p | digest p | rdstate p | rdstatus p =>
    by_cases empty : p.length = 0
    · obtain rfl := List.eq_nil_of_length_eq_zero empty
      exact .inr fun s => ⟨_, _, rfl, by constructor⟩
    · exact .inl ⟨_, fun s => if_neg empty⟩
  | update p => exact .inr fun s => ⟨_, _, rfl, .update p⟩
  | compress p =>
    by_cases len : p.length = 64
    · refine .inr fun s => ⟨_, _, ?_, .compress ⟨p, len⟩⟩
      simp only [exec, execCompress, compress_of_length len]
    · refine .inl ⟨.invalidBlockLength, fun s => ?_⟩
      simp only [exec, execCompress, compress_of_length_ne len]
  | ldstate p =>
    by_cases len : p.length = 20
    · exact .inr fun s => ⟨_, _, if_pos len, .ldstate p len⟩
    · exact .inl ⟨_, fun s => if_neg len⟩
  | ldcount p =>
    by_cases len : p.length = 8
    · by_cases mult : (countOperand p).toNat % 64 = 0
      · exact .inr fun s => ⟨_, _, (if_pos len).trans (if_pos mult), .ldcount p len mult⟩
      · exact .inl ⟨_, fun s => (if_pos len).trans (if_neg mult)⟩
    · exact .inl ⟨_, fun s => if_neg len⟩

variable {s s' u u' : State} {i : Instr} {d d' : List Byte}

theorem State.SameData.absorb_append (same : s.SameData s') (p : List Byte) :
    (absorb { s with buf := s.buf ++ p }).SameData (absorb { s' with buf := s'.buf ++ p }) := by
  constructor <;> simp [same.h, same.buf, same.count]

theorem State.SameData.finalize_eq (same : s.SameData s') : finalize s' = finalize s := by
  simp [finalize, same.h, same.buf, same.count]

theorem State.SameData.statusBytes_eq (same : s.SameData s') (err : s'.err = s.err) : statusBytes s' = statusBytes s := by
  simp [statusBytes, same.buf, same.count, err]

/-- R16, R22: a successful command computes the registers it leaves from `H`, `BUF` and `COUNT`. -/
theorem Success.sameData (hu : Success s i u d) (hu' : Success s' i u' d') (same : s.SameData s') : u.SameData u' := by
  cases hu with
  | compress blk =>
    obtain ⟨bytes, size⟩ := blk
    cases hu'
    exact ⟨congrArg (compressBlock _) same.h, same.buf, same.count⟩
  | init => cases hu'; exact ⟨rfl, rfl, rfl⟩
  | update p => cases hu'; exact same.absorb_append p
  | ldstate => cases hu'; exact ⟨rfl, same.buf, same.count⟩
  | ldcount => cases hu'; exact ⟨same.h, same.buf, rfl⟩
  | digest | rdstate | rdstatus => cases hu'; exact same

/-- R16: a successful command's response data comes from `H`, `BUF` and `COUNT`; RDSTATUS's reads `ERR` as well. -/
theorem Success.data_eq (hu : Success s i u d) (hu' : Success s' i u' d') (same : s.SameData s')
    (err : i.opcode ≠ .rdstatus ∨ s'.err = s.err) : d' = d := by
  cases hu with
  | compress blk =>
    obtain ⟨bytes, size⟩ := blk
    cases hu'
    rfl
  | init | update | ldstate | ldcount => cases hu'; rfl
  | digest => cases hu'; rw [same.finalize_eq]
  | rdstate => cases hu'; rw [same.h]
  | rdstatus => cases hu'; exact same.statusBytes_eq (err.resolve_left fun ne => ne rfl)

/-- Two runs of one command from states that agree in `H`, `BUF` and `COUNT`: both answer a next state, these agree
again, each adds a response to its own streams, and the responses are equal where `ERR` agrees or is not read. -/
theorem exec_sameData (i : Instr) (same : s.SameData s') :
    ∃ (t t' : State) (r r' : List Byte), exec i s = .next t ∧ exec i s' = .next t' ∧ t.SameData t' ∧
      (s'.err = s.err → t'.err = t.err) ∧ (t.cmd = s.cmd ∧ t'.cmd = s'.cmd) ∧
      (t.rsp = s.rsp ++ r ∧ t'.rsp = s'.rsp ++ r') ∧ (i.opcode ≠ .rdstatus ∨ s'.err = s.err → r' = r) := by
  obtain ⟨k, raises⟩ | succeeds := exec_uniform i
  · exact ⟨_, _, _, _, raises s, raises s', ⟨same.h, same.buf, same.count⟩, congrArg (recordError k), ⟨rfl, rfl⟩,
      ⟨rfl, rfl⟩, fun _ => rfl⟩
  · obtain ⟨u, d, done, hu⟩ := succeeds s
    obtain ⟨u', d', done', hu'⟩ := succeeds s'
    obtain ⟨sameH, sameBuf, sameCount⟩ := hu.sameData hu' same
    refine ⟨_, _, (Response.success d).bytes, (Response.success d').bytes, done, done', ⟨sameH, sameBuf, sameCount⟩,
      fun err => ?_, ⟨hu.cmd, hu'.cmd⟩, ⟨?_, ?_⟩, fun err => by rw [hu.data_eq hu' same err]⟩
    · rw [State.respond_err, State.respond_err, hu.err, hu'.err, err]
    · rw [State.respond_rsp, hu.rsp]
    · rw [State.respond_rsp, hu'.rsp]

end Sys2Proof.Machine

open Sys2Proof Sys2Proof.Machine

/-- Settles O42: the run with another `ERR` agrees in `H`, `BUF` and `COUNT`, and only RDSTATUS's response reads `ERR`. -/
theorem nothingDependsOnErr : Obligations.NothingDependsOnErr := by
  intro i s e
  obtain ⟨t, u, r, r', ht, hu, same, -, ⟨tcmd, ucmd⟩, ⟨trsp, ursp⟩, responses⟩ :=
    exec_sameData (s := s) (s' := { s with err := e }) i ⟨rfl, rfl, rfl⟩
  refine ⟨t, u, ht, hu, same.h, same.buf, same.count, ucmd.trans tcmd.symm, fun notStatus => ?_⟩
  rw [ursp, trsp, responses (.inl notStatus)]

/-- Settles O43: the run with other streams agrees in all four registers, so it sends the same response. -/
theorem nothingDependsOnTheStreams : Obligations.NothingDependsOnTheStreams := by
  intro i s c r
  obtain ⟨t, u, d, d', ht, hu, same, err, ⟨tcmd, ucmd⟩, ⟨trsp, ursp⟩, responses⟩ :=
    exec_sameData (s := s) (s' := { s with cmd := c, rsp := r }) i ⟨rfl, rfl, rfl⟩
  obtain rfl := responses (.inr rfl)
  exact ⟨t, u, d', ht, hu, ⟨same.h.symm, same.buf.symm, same.count.symm, (err rfl).symm⟩, tcmd, ucmd, trsp, ursp⟩

end

section
/-!
PROOFS. The byte-serial parser (10_state.md R21): what it does with a header, with a part of a payload and with the rest
of one, and so with packets back to back (30_encoding.md R46).
-/

namespace Sys2Proof

open Sys2Proof.Machine

variable {opc rsv : Byte} {len : Nat} {got : List Byte}

@[simp] theorem Parser.feed_nil (q : Parser) : q.feed [] = (q, []) := by cases q <;> rfl

/-- One byte, then the others: the packet the byte completes, if it does, comes first. -/
theorem Parser.feed_cons (q : Parser) (b : Byte) (bs : List Byte) :
    q.feed (b :: bs) = (((q.accept b).1.feed bs).1, (q.accept b).2.toList ++ ((q.accept b).1.feed bs).2) := by
  rw [Parser.feed]
  obtain ⟨q', _ | p⟩ := q.accept b <;> rfl

/-- R21: the parser can be given a byte sequence in two parts. -/
theorem Parser.feed_append (q : Parser) (as bs : List Byte) :
    q.feed (as ++ bs) = (((q.feed as).1.feed bs).1, (q.feed as).2 ++ ((q.feed as).1.feed bs).2) := by
  induction as generalizing q with
  | nil => simp
  | cons a as ih => simp [Parser.feed_cons, ih]

/-- R21: a header with `LEN` greater than 0 leaves the parser waiting for `LEN` payload bytes. -/
theorem Parser.feed_header (fits : len ≤ 65535) (pos : len ≠ 0) (bs : List Byte) :
    Parser.boundary.feed (opc :: rsv :: (be16 len ++ bs)) = (Parser.inPayload opc rsv len []).feed bs := by
  have lenField := fromBE_be16 fits
  rw [be16] at lenField
  simp [be16, Parser.feed_cons, Parser.accept, lenField, pos]

theorem Parser.accept_payload_more (b : Byte) (more : got.length + 1 < len) :
    (Parser.inPayload opc rsv len got).accept b = (.inPayload opc rsv len (got ++ [b]), none) :=
  if_pos (by simpa using more)

theorem Parser.accept_payload_last (b : Byte) (last : got.length + 1 = len) :
    (Parser.inPayload opc rsv len got).accept b = (.boundary, some ⟨opc, rsv, got ++ [b]⟩) :=
  if_neg (by simp [last])

/-- R21: fewer payload bytes than are missing complete no packet. -/
theorem Parser.feed_payload_part (part : List Byte) (short : got.length + part.length < len) :
    (Parser.inPayload opc rsv len got).feed part = (.inPayload opc rsv len (got ++ part), []) := by
  induction part generalizing got with
  | nil => simp
  | cons b bs ih =>
    rw [List.length_cons] at short
    have others := ih (got := got ++ [b]) (by rw [List.length_append, List.length_singleton]; omega)
    simp [Parser.feed_cons, Parser.accept_payload_more b (by omega : got.length + 1 < len), others]

/-- R21: exactly the missing payload bytes complete the packet, and the parser holds nothing. -/
theorem Parser.feed_payload_rest (rest : List Byte) (nonempty : rest ≠ []) (missing : got.length + rest.length = len) :
    (Parser.inPayload opc rsv len got).feed rest = (.boundary, [⟨opc, rsv, got ++ rest⟩]) := by
  obtain ⟨front, b, rfl⟩ := (List.eq_nil_or_concat' rest).resolve_left nonempty
  rw [List.length_append, List.length_singleton] at missing
  have last : (got ++ front).length + 1 = len := by rw [List.length_append]; omega
  rw [Parser.feed_append, Parser.feed_payload_part front (by omega)]
  simp [Parser.feed_cons, Parser.accept_payload_last b last]

/-- R46: a whole packet's bytes give the packet back. -/
theorem Parser.feed_packet (p : Packet) (fits : p.fits = true) : Parser.boundary.feed p.bytes = (.boundary, [p]) := by
  obtain ⟨opc, rsv, payload⟩ := p
  by_cases empty : payload = []
  · subst empty
    simp [Packet.bytes, be16, Parser.feed_cons, Parser.accept, fromBE]
  · rw [Packet.bytes, Parser.feed_header (of_decide_eq_true fits) (by simpa using empty),
      Parser.feed_payload_rest payload empty (by simp)]
    rfl

/-- R45: packets back to back come out in order. -/
theorem Parser.feed_packetStream (ps : List Packet) (fits : ∀ p ∈ ps, p.fits = true) :
    Parser.boundary.feed (packetStream ps) = (.boundary, ps) := by
  induction ps with
  | nil => rfl
  | cons p ps ih =>
    rw [packetStream, List.flatMap_cons, Parser.feed_append, Parser.feed_packet p (fits p List.mem_cons_self)]
    have others := ih fun q hq => fits q (List.mem_cons_of_mem p hq)
    rw [packetStream] at others
    simp [others]

/-- R165: a part of a packet, but not nothing, completes no packet and leaves the parser inside it. -/
theorem Parser.feed_take (p : Packet) (n : Nat) (fits : p.fits = true) (short : n + 1 < p.bytes.length) :
    (Parser.boundary.feed (p.bytes.take (n + 1))).2 = [] ∧
      (Parser.boundary.feed (p.bytes.take (n + 1))).1 ≠ .boundary := by
  match n with
  | 0 | 1 | 2 => simp [Packet.bytes, be16, Parser.feed_cons, Parser.accept]
  | m + 3 =>
    rw [Packet.bytes_length] at short
    have front : p.bytes.take (m + 3 + 1) = p.opc :: p.rsv :: (be16 p.payload.length ++ p.payload.take m) := rfl
    rw [front, Parser.feed_header (of_decide_eq_true fits) (by omega),
      Parser.feed_payload_part (p.payload.take m) (by simp; omega)]
    simp

end Sys2Proof

open Sys2Proof

/-- Settles O30: whole packets by induction over the list, parts of one by where the cut falls. -/
theorem serialParserFramesPackets : Obligations.SerialParserFramesPackets := by
  refine ⟨Parser.feed_packetStream, fun p n fits short => ?_⟩
  cases n with
  | zero => simp
  | succ n =>
    obtain ⟨none, inside⟩ := Parser.feed_take p n fits short
    exact ⟨none, by simp [inside]⟩

end

section
/-!
PROOFS. What a step makes of the whole packet at the front of the command stream, and a run of whole packets
(20_memory.md R37, R38; 30_encoding.md R43, R46, R50; 70_reset_and_hazards.md R172).
-/

namespace Sys2Proof.Machine

/-- R46: with a header and at least `LEN` bytes after it, framing takes the header and the `LEN` bytes. -/
theorem framePacket_header (opc rsv lenHi lenLo : Byte) {rest : List Byte}
    (whole : lenHi.toNat * 256 + lenLo.toNat ≤ rest.length) :
    framePacket (opc :: rsv :: lenHi :: lenLo :: rest) =
      .ok (⟨opc, rsv, rest.take (lenHi.toNat * 256 + lenLo.toNat)⟩, rest.drop (lenHi.toNat * 256 + lenLo.toNat)) := by
  have lenField : fromBE [lenHi, lenLo] = lenHi.toNat * 256 + lenLo.toNat := by simp [fromBE]
  rw [← lenField] at whole ⊢
  exact if_pos whole

/-- R37: the execution of a command's own packet is that command's execution. -/
theorem execPacket_packet (i : Instr) (s : State) : execPacket i.packet s = exec i s := by
  rw [execPacket, decodePacket_packet]

/-- R140, R50, R16: a packet's execution answers a next state, leaves the waiting packets, and sends one response; `ERR` is
0 afterwards exactly if it was 0 and the response's status is 0. -/
theorem execPacket_answers (p : Packet) (s : State) :
    ∃ (t : State) (r : Response), execPacket p s = .next t ∧ t.cmd = s.cmd ∧ t.rsp = s.rsp ++ r.bytes ∧
      (t.err = 0 ↔ r.status = 0 ∧ s.err = 0) := by
  obtain ⟨k, raised⟩ | ⟨i, u, d, -, done, success⟩ := execPacket_cases p s
  · exact ⟨_, .failure k, raised, rfl, rfl,
      iff_of_false (recordError_ne_zero k s.err) fun ⟨ok, _⟩ => k.code_ne_zero ok⟩
  · refine ⟨_, .success d, done, success.cmd, ?_, ?_⟩
    · rw [State.respond_rsp, success.rsp]
    · rw [State.respond_err, success.err, Response.success_status, and_iff_right rfl]

/-- R38: a run's first step, then the others. -/
theorem run_succ_of_step (M : Host.Core) {s t : M.State} (n : Nat) (first : M.step s = .next t) :
    M.run (n + 1) s = M.run n t := by
  rw [Host.Core.run, first]

/-- R38, R172: a run of whole packets, one step each, from any state whose command stream they are. -/
theorem run_packetStream (ps : List Packet) (s : State) (fits : ∀ p ∈ ps, p.fits = true)
    (front : s.cmd = packetStream ps) :
    ∃ (t : State) (rs : List Response), core.run ps.length s = .next t ∧ t.cmd = [] ∧
      t.rsp = s.rsp ++ responseStream rs ∧ rs.length = ps.length ∧
      (t.err = 0 ↔ (∀ r ∈ rs, r.status = 0) ∧ s.err = 0) := by
  induction ps generalizing s with
  | nil => exact ⟨s, [], rfl, front, by simp [responseStream], rfl, by simp⟩
  | cons p ps ih =>
    obtain ⟨u, r, done, cmd, rsp, err⟩ := execPacket_answers p { s with cmd := packetStream ps }
    have first : step s = .next u := (step_of_packet p _ s (fits p List.mem_cons_self) front).trans done
    obtain ⟨t, rs, others, empty, sent, count, errs⟩ := ih u (fun q hq => fits q (List.mem_cons_of_mem p hq)) cmd
    refine ⟨t, r :: rs, (run_succ_of_step core ps.length first).trans others, empty, ?_, congrArg (· + 1) count, ?_⟩
    · rw [sent, rsp, List.append_assoc]
      rfl
    · rw [errs, err, List.forall_mem_cons, ← and_assoc, and_comm (a := ∀ r ∈ rs, _)]

end Sys2Proof.Machine

open Sys2Proof Sys2Proof.Machine

/-- Settles O44: by induction over the packets, one answered step each. A packet answered with an error leaves `ERR` not 0
for the rest of the run, so `ERR` is 0 at the end exactly if no status was an error. -/
theorem runAnswersEveryPacket : Obligations.RunAnswersEveryPacket := by
  intro ps s fits
  obtain ⟨t, rs, run, empty, sent, count, errs⟩ := run_packetStream ps { s with cmd := packetStream ps } fits rfl
  exact ⟨t, rs, run, empty, sent, count, fun clear => (errs.trans (and_iff_left clear)).symm⟩

/-- Settles O34: the header and its `LEN` bytes are framed as a packet, and a packet's execution leaves the waiting bytes. -/
theorem framingDependsOnLenAlone : Obligations.FramingDependsOnLenAlone := by
  intro opc rsv lenHi lenLo rest s front whole
  obtain ⟨fits, bytes⟩ := framePacket_ok (framePacket_header opc rsv lenHi lenLo whole)
  obtain ⟨t, -, done, cmd, -⟩ := execPacket_answers _ _
  exact ⟨t, (step_of_packet _ _ s fits (front.trans bytes)).trans done, cmd⟩

/-- Settles O31: the encoded command is its packet's bytes, and that packet selects the command. -/
theorem stepRunsTheDecodedCommand : Obligations.StepRunsTheDecodedCommand := by
  intro i rest s fits front
  rw [step_of_packet i.packet rest s fits front, execPacket_packet]

end

section
/-!
PROOFS. The three read commands (20_memory.md R39): each adds a response that is the state's own and changes nothing else,
so any sequence of them adds their responses in order.
-/

namespace Sys2Proof.Machine

/-- R39: the read commands, as packets of legal length. -/
abbrev readCommands : List Instr := [.digest [], .rdstate [], .rdstatus []]

/-- R108, R119, R120: the data a read command reports of a state; no other command reports any. -/
def readData (s : State) : Instr → List Byte
  | .digest _ => stateBytes (finalize s)
  | .rdstate _ => stateBytes s.h
  | .rdstatus _ => statusBytes s
  | _ => []

/-- R50: the response packet a read command adds to the response stream. -/
def readResponse (s : State) (i : Instr) : List Byte := (Response.success (readData s i)).bytes

/-- R39: a read command responds and leaves everything else. -/
theorem exec_of_mem_readCommands {i : Instr} (read : i ∈ readCommands) (s : State) :
    exec i s = .next (s.respond (readData s i)) := by
  simp only [readCommands, List.mem_cons, List.not_mem_nil, or_false] at read
  obtain rfl | rfl | rfl := read <;> rfl

/-- R39: what has been sent before a read does not change what it reports. -/
theorem readResponse_respond (s : State) (d : List Byte) : readResponse (s.respond d) = readResponse s := by
  funext i
  cases i <;> rfl

/-- R39: a sequence of reads adds their responses in order and changes nothing else. -/
theorem execAll_of_readCommands (is : List Instr) (s : State) (reads : ∀ i ∈ is, i ∈ readCommands) :
    execAll is s = .next { s with rsp := s.rsp ++ is.flatMap (readResponse s) } := by
  induction is generalizing s with
  | nil => simp [execAll]
  | cons i is ih =>
    obtain ⟨read, others⟩ := List.forall_mem_cons.mp reads
    simp only [execAll, exec_of_mem_readCommands read]
    rw [ih (s.respond _) others, readResponse_respond, State.respond_rsp, List.append_assoc, List.flatMap_cons]
    rfl

end Sys2Proof.Machine

open Sys2Proof Sys2Proof.Machine

/-- Settles O41: the one response per read is `readResponse`, which reads only what no read changes. -/
theorem readsHaveNoSideEffects : Obligations.ReadsHaveNoSideEffects :=
  fun s => ⟨readResponse s, fun _ read => exec_of_mem_readCommands read s,
    fun is reads => execAll_of_readCommands is s reads⟩

end

section
/-!
PROOFS. Byte order (20_memory.md R33, R34): a big-endian form and the numeral it spells determine each other, and a chaining
value's bytes are cut into its words' bytes.
-/

namespace Sys2Proof.Machine

/-- R8: byte sequences of one length that spell one number are equal. -/
theorem fromBE_inj {as bs : List Byte} (len : as.length = bs.length) (eq : fromBE as = fromBE bs) : as = bs := by
  induction as generalizing bs with
  | nil => exact (List.eq_nil_of_length_eq_zero len.symm).symm
  | cons a as ih =>
    obtain _ | ⟨b, bs⟩ := bs
    · cases len
    · have tails : as.length = bs.length := Nat.succ.inj len
      rw [fromBE_cons, fromBE_cons, tails] at eq
      have low : fromBE as = fromBE bs := by
        have mods := congrArg (· % 256 ^ bs.length) eq
        simpa only [Nat.mul_add_mod_self_right, Nat.mod_eq_of_lt (fromBE_lt bs),
          Nat.mod_eq_of_lt (tails ▸ fromBE_lt as)] using mods
      have high : a.toNat = b.toNat := by
        rw [low] at eq
        exact Nat.eq_of_mul_eq_mul_right (by positivity) (Nat.add_right_cancel eq)
      rw [BitVec.eq_of_toNat_eq high, ih tails low]

/-- R33: four bytes are the big-endian form of the word they spell. -/
theorem be32_fromBE {bs : List Byte} (len : bs.length = 4) : be32 (BitVec.ofNat 32 (fromBE bs)) = bs := by
  refine fromBE_inj len.symm ?_
  rw [fromBE_be32, BitVec.toNat_ofNat, Nat.mod_eq_of_lt (by simpa [len] using fromBE_lt bs)]

/-- R34: eight bytes are the big-endian form of the 64-bit value they spell. -/
theorem be64_fromBE {bs : List Byte} (len : bs.length = 8) : be64 (BitVec.ofNat 64 (fromBE bs)) = bs := by
  refine fromBE_inj len.symm ?_
  rw [fromBE_be64, BitVec.toNat_ofNat, Nat.mod_eq_of_lt (by simpa [len] using fromBE_lt bs)]

/-- R8: byte `j` of a word's big-endian form. -/
theorem be32_getElem? (w : Word) (j : Fin 4) : (be32 w)[j.val]? = some (w.extractLsb' (24 - 8 * j.val) 8) := by
  match j with
  | 0 | 1 | 2 | 3 => rfl

theorem slice_getElem? (bs : List Byte) (i : Nat) {n j : Nat} (inside : j < n) :
    (slice bs i (i + n))[j]? = bs[i + j]? := by
  rw [slice, Nat.add_sub_cancel_left, List.getElem?_take_of_lt inside, List.getElem?_drop]

/-- The whole of a sequence is its only full slice. -/
theorem slice_all {bs : List Byte} {n : Nat} (len : bs.length = n) : slice bs 0 n = bs :=
  List.take_of_length_le len.le

/-- Two slices that meet are one. -/
theorem slice_append (bs : List Byte) {i j k : Nat} (ij : i ≤ j) (jk : j ≤ k) :
    slice bs i j ++ slice bs j k = slice bs i k := by
  rw [slice, slice, slice, ← Nat.sub_add_sub_cancel jk ij, Nat.add_comm (k - j), List.take_add, List.drop_drop,
    Nat.add_sub_cancel' ij]

/-- R110: the four bytes of word `k` in a chaining value's 20 bytes. -/
theorem slice_stateBytes (t : HashState) (k : Fin 5) :
    slice (stateBytes t) (4 * k.val) (4 * k.val + 4) = be32 t[k.val] := by
  match k with
  | 0 | 1 | 2 | 3 | 4 => rfl

theorem payloadWord_stateBytes (t : HashState) (k : Fin 5) : payloadWord (stateBytes t) k.val = t[k.val] := by
  rw [payloadWord, slice_stateBytes, fromBE_be32, BitVec.ofNat_toNat, BitVec.setWidth_eq]

/-- R115: word `k` of LDSTATE's operand. -/
theorem stateOperand_getElem (p : List Byte) (k : Fin 5) : (stateOperand p)[k.val] = payloadWord p k.val := by
  match k with
  | 0 | 1 | 2 | 3 | 4 => rfl

/-- R119: LDSTATE reads back the words whose bytes RDSTATE returns. -/
theorem stateOperand_stateBytes (t : HashState) : stateOperand (stateBytes t) = t :=
  Vector.ext fun k below => (stateOperand_getElem _ ⟨k, below⟩).trans (payloadWord_stateBytes t ⟨k, below⟩)

/-- R110: byte `4k + j` of a chaining value's 20 bytes is byte `j` of its word `k`. -/
theorem stateBytes_getElem? (t : HashState) (k : Fin 5) (j : Fin 4) :
    (stateBytes t)[4 * k.val + j.val]? = some ((t[k.val]).extractLsb' (24 - 8 * j.val) 8) := by
  rw [← slice_getElem? _ _ j.isLt, slice_stateBytes, be32_getElem?]

/-- R115: the big-endian form of a payload's word `k` is the payload's own bytes. -/
theorem be32_payloadWord (p : List Byte) (k : Nat) (inside : 4 * k + 4 ≤ p.length) :
    be32 (payloadWord p k) = slice p (4 * k) (4 * k + 4) :=
  be32_fromBE (by rw [slice_length]; omega)

/-- R110, R115: the five words of a 20-byte payload have its bytes, in order. -/
theorem stateBytes_stateOperand {p : List Byte} (len : p.length = 20) : stateBytes (stateOperand p) = p :=
  calc be32 (payloadWord p 0) ++ be32 (payloadWord p 1) ++ be32 (payloadWord p 2) ++ be32 (payloadWord p 3) ++
        be32 (payloadWord p 4)
      = slice p 0 4 ++ slice p 4 8 ++ slice p 8 12 ++ slice p 12 16 ++ slice p 16 20 := by
        simp [be32_payloadWord, len]
    _ = slice p 0 20 := by simp [slice_append]
    _ = p := slice_all len

end Sys2Proof.Machine

open Sys2Proof Sys2Proof.Machine

/-- Settles O24: each word's bytes are a slice of the 20, and the slices of 20 bytes spell the words that have them. -/
theorem stateBytesRoundTrip : Obligations.StateBytesRoundTrip :=
  ⟨fun t => ⟨stateBytes_length t, stateOperand_stateBytes t, stateBytes_getElem? t⟩, fun _ => stateBytes_stateOperand⟩

/-- Settles O25: eight bytes are the big-endian form of the value they spell, and only of that one. -/
theorem countBytesRoundTrip : Obligations.CountBytesRoundTrip := by
  refine ⟨fun v => ⟨be64_length v, ?_, fromBE_be64 v⟩, fun p len => ?_⟩
  · rw [countOperand, slice_all (be64_length v), fromBE_be64, BitVec.ofNat_toNat, BitVec.setWidth_eq]
  · rw [countOperand, slice_all len, be64_fromBE len]

end

section
/-!
PROOFS. Decoding and encoding are inverse to each other (30_encoding.md R45 to R47).
-/

namespace Sys2Proof

/-- R49: a command's packet at the front of a byte sequence decodes to the command. -/
theorem decode_encode (i : Instr) (rest : List Byte) (fits : i.fits = true) :
    decode (encode i ++ rest) = .ok (i, rest) := by
  simp only [decode, encode, framePacket_bytes i.packet rest fits, decodePacket_packet]

/-- R49: a framed packet that selects no command does not decode, for its own reason. -/
theorem decode_bytes_error {p : Packet} {e : DecodeError} (rest : List Byte) (fits : p.fits = true)
    (illegal : decodePacket p = .error e) : decode (p.bytes ++ rest) = .error e := by
  simp only [decode, framePacket_bytes p rest fits, illegal]

/-- A decoded command is that of the packet framed at the front. -/
theorem decode_ok {bs rest : List Byte} {i : Instr} (h : decode bs = .ok (i, rest)) :
    framePacket bs = .ok (i.packet, rest) := by
  rw [decode] at h
  split at h
  · cases h
  · next p after framed =>
    split at h
    · cases h
    · next decoded =>
      cases h
      rw [framed, decodePacket_ok decoded]

end Sys2Proof

open Sys2Proof

/-- Settles O26: framing gives back the command's own packet, and that packet selects the command. -/
theorem decodeOfEncodeIsTheCommand : Obligations.DecodeOfEncodeIsTheCommand :=
  decode_encode

/-- Settles O27: the framed packet is the decoded command's own, and framing took that packet's bytes off the front. -/
theorem decodedBytesAreTheEncoding : Obligations.DecodedBytesAreTheEncoding :=
  fun _ _ _ decoded => framePacket_ok (decode_ok decoded)

/-- Settles O29: the bytes written out are the commands' encodings, and those of two packets that select no command. -/
theorem writtenPacketsDecode : Obligations.WrittenPacketsDecode :=
  ⟨decode_encode (.init []) [] rfl, decode_encode (.update [0x6E, 0x61, 0x6E, 0x61, 0x6E, 0x61]) [] rfl,
    decode_encode (.digest []) [0x08] rfl, decode_encode (.ldcount [0, 0, 0, 0, 0, 0, 0, 0x40]) [] rfl,
    decode_bytes_error (p := ⟨0x01, 0x01, []⟩) [] rfl rfl,
    decode_bytes_error (p := ⟨0x09, 0x00, [0xAA, 0xBB]⟩) [] rfl rfl⟩

end

section
/-!
PROOFS. The opcode map (30_encoding.md R46, R47): the header's bytes, which headers select which command, and the error of a
length the command's row does not allow.
-/

namespace Sys2Proof

open Sys2Proof.Machine

/-- Concatenated words are equal part by part. -/
theorem word_append_inj {m n : Nat} {a b : BitVec m} {c d : BitVec n} : a ++ c = b ++ d ↔ a = b ∧ c = d := by
  refine ⟨fun eq => ⟨?_, ?_⟩, fun ⟨high, low⟩ => high ▸ low ▸ rfl⟩
  · simpa only [BitVec.extractLsb'_append_eq_left] using congrArg (BitVec.extractLsb' n m) eq
  · simpa only [BitVec.extractLsb'_append_eq_right] using congrArg (BitVec.extractLsb' 0 n) eq

/-- R47: the mask keeps `OPC` and `RSV` and clears `LEN`. -/
theorem Packet.header_and_mask (p : Packet) : p.header &&& headerMask = p.opc ++ p.rsv ++ (0 : BitVec 16) := by
  have mask : headerMask = BitVec.allOnes 8 ++ BitVec.allOnes 8 ++ (0 : BitVec 16) := by decide
  rw [Packet.header, mask, BitVec.and_append, BitVec.and_append, BitVec.and_allOnes, BitVec.and_allOnes]
  simp

/-- R47: a row's match value is its code with `RSV` and `LEN` 0. -/
theorem Opcode.matchWord_eq (op : Opcode) : op.matchWord = op.code ++ (0 : Byte) ++ (0 : BitVec 16) := by
  cases op <;> rfl

/-- R49: a packet selects an opcode's command exactly by its `OPC` and a zero `RSV`. -/
theorem decodePacket_eq_ok_iff (p : Packet) (op : Opcode) :
    decodePacket p = .ok (op.instr p.payload) ↔ p.opc = op.code ∧ p.rsv = 0 := by
  constructor
  · intro decoded
    have own := decodePacket_ok decoded
    constructor
    · simpa using congrArg Packet.opc own
    · simpa using congrArg Packet.rsv own
  · rintro ⟨opc, rsv⟩
    rw [decodePacket, if_pos rsv, opc, Opcode.ofByte_code]

/-- R46: the header is the number that the packet's first four bytes spell. -/
theorem Packet.header_toNat (p : Packet) : p.header.toNat = fromBE (p.bytes.take 4) := by
  have spelled : fromBE (p.bytes.take 4) = ((p.opc.toNat * 256 + p.rsv.toNat) * 256 + p.payload.length / 256 % 256) * 256 +
      p.payload.length % 256 := by simp [Packet.bytes, be16, fromBE]
  rw [spelled, Packet.header, BitVec.toNat_append, BitVec.toNat_append, ← Nat.shiftLeft_add_eq_or_of_lt (BitVec.isLt _),
    ← Nat.shiftLeft_add_eq_or_of_lt (BitVec.isLt _), Nat.shiftLeft_eq, Nat.shiftLeft_eq, BitVec.toNat_ofNat]
  omega

/-- R46: the header's big-endian bytes are the packet's first four. -/
theorem Packet.be32_header (p : Packet) : be32 p.header = p.bytes.take 4 :=
  fromBE_inj (by simp) ((fromBE_be32 p.header).trans p.header_toNat)

/-- R47, the column "LEN error". UPDATE has none: every `LEN` is legal for it. -/
def Opcode.lenError : Opcode → ErrorKind
  | .compress => .invalidBlockLength
  | .ldstate => .invalidDigestEncoding
  | _ => .illegalCommand

/-- R49 step 3: a payload of a length that the row does not allow raises the row's LEN error. -/
theorem exec_illegalLen (op : Opcode) {p : List Byte} (s : State) (fits : p.length ≤ 65535)
    (illegal : op.legalLen p.length = false) :
    op ≠ .update ∧ exec (op.instr p) s = .next (s.raiseError op.lenError) := by
  cases op with
  | update => exact absurd fits (of_decide_eq_false illegal)
  | compress =>
    refine ⟨by decide, ?_⟩
    simp only [Opcode.instr, exec, execCompress, compress_of_length_ne (ne_of_beq_false illegal)]
    rfl
  | init | digest | ldstate | ldcount | rdstate | rdstatus => exact ⟨by decide, if_neg (ne_of_beq_false illegal)⟩

end Sys2Proof

open Sys2Proof Sys2Proof.Machine

/-- Settles O28: the masked header and the match value are concatenations, equal exactly when `OPC` is the row's and `RSV` is
0, which is when the packet selects the command. -/
theorem opcodeMapFollowsTheTable : Obligations.OpcodeMapFollowsTheTable := by
  refine ⟨fun p op _ => ⟨?_, p.be32_header⟩, fun op _ s fits illegal => exec_illegalLen op s fits illegal⟩
  calc decodePacket p = .ok (op.instr p.payload)
      ↔ p.opc = op.code ∧ p.rsv = 0 := decodePacket_eq_ok_iff p op
    _ ↔ p.opc ++ p.rsv ++ (0 : BitVec 16) = op.code ++ (0 : Byte) ++ (0 : BitVec 16) := by
      simp only [word_append_inj, and_true]
    _ ↔ p.header &&& headerMask = op.matchWord := by rw [p.header_and_mask, op.matchWord_eq]

end

section
/-!
PROOFS. Illegal packets (30_encoding.md R52): each reason for which a packet raises IllegalCommand.
-/

namespace Sys2Proof.Machine

/-- R49 steps 1 and 2: a packet that selects no command raises IllegalCommand. -/
theorem execPacket_of_error {p : Packet} {e : DecodeError} (illegal : decodePacket p = .error e) (s : State) :
    execPacket p s = .next (s.raiseError .illegalCommand) := by
  rw [execPacket, illegal]

/-- R49 step 1. -/
theorem execPacket_reserved {p : Packet} (rsv : p.rsv ≠ 0x00) (s : State) :
    execPacket p s = .next (s.raiseError .illegalCommand) :=
  execPacket_of_error (if_neg rsv) s

/-- R49 step 2, with the reserved byte checked before. -/
theorem execPacket_unassigned {p : Packet} (opc : Opcode.ofByte p.opc = none) (s : State) :
    execPacket p s = .next (s.raiseError .illegalCommand) := by
  by_cases rsv : p.rsv = 0x00
  · exact execPacket_of_error (e := .unassignedOpcode) (by rw [decodePacket, if_pos rsv, opc]) s
  · exact execPacket_reserved rsv s

/-- R49 step 3, for a command whose LEN error is IllegalCommand, with the reserved byte checked before. -/
theorem execPacket_illegalLen {p : Packet} (op : Opcode) (s : State) (fits : p.fits = true) (opc : p.opc = op.code)
    (illegal : op.legalLen p.payload.length = false) (err : op.lenError = .illegalCommand) :
    execPacket p s = .next (s.raiseError .illegalCommand) := by
  by_cases rsv : p.rsv = 0x00
  · rw [execPacket, (decodePacket_eq_ok_iff p op).mpr ⟨opc, rsv⟩, ← err]
    exact (exec_illegalLen op s (of_decide_eq_true fits) illegal).2
  · exact execPacket_reserved rsv s

end Sys2Proof.Machine

open Sys2Proof Sys2Proof.Machine

/-- Settles O32: the step executes the packet, and for each of the five reasons the execution is the error entry with
IllegalCommand, whose effect is the stated state. -/
theorem illegalPacketsRaiseIllegalCommand : Obligations.IllegalPacketsRaiseIllegalCommand := by
  intro p rest s fits front illegal
  suffices raised : ∀ t, execPacket p t = .next (t.raiseError .illegalCommand) from
    (step_of_packet p rest s fits front).trans (raised _)
  intro t
  obtain rsv | opc | opc | ⟨opc, len⟩ | ⟨opc, len⟩ := illegal
  · exact execPacket_reserved rsv t
  · exact execPacket_unassigned (by rw [opc]; rfl) t
  · exact execPacket_unassigned (Opcode.ofByte_none (.inr opc)) t
  · simp only [List.mem_cons, List.not_mem_nil, or_false] at opc
    obtain opc | opc | opc | opc := opc
    · exact execPacket_illegalLen .init t fits opc (beq_false_of_ne len) rfl
    · exact execPacket_illegalLen .digest t fits opc (beq_false_of_ne len) rfl
    · exact execPacket_illegalLen .rdstate t fits opc (beq_false_of_ne len) rfl
    · exact execPacket_illegalLen .rdstatus t fits opc (beq_false_of_ne len) rfl
  · exact execPacket_illegalLen .ldcount t fits opc (beq_false_of_ne len) rfl

end

section
/-!
PROOFS. The byte transfers of a clock edge (30_encoding.md R58; 70_reset_and_hazards.md R155).
-/

namespace Sys2Proof.Machine

variable {e : Edge} {s : State}

/-- R155, R58: in reset the engine accepts and offers nothing, and it offers a byte only when it has one. -/
theorem Edge.possible_iff :
    e.possible s = true ↔
      (e.rst = true → e.cmdReady = false ∧ e.rspValid = false) ∧ (e.rspValid = true → s.rsp ≠ []) := by
  simp [Edge.possible, imp_iff_not_or]

/-- R155: while `rst` is 1 the edge resets. -/
theorem clockEdge_of_rst (rst : e.rst = true) : clockEdge e s = State.reset := if_pos rst

/-- R58: without reset the edge writes the two streams only, each by its own valid and ready. -/
theorem clockEdge_of_not_rst (rst : e.rst = false) :
    clockEdge e s =
      { s with
        cmd := if e.cmdValid = true ∧ e.cmdReady = true then s.cmd ++ [e.cmdData] else s.cmd
        rsp := if e.rspValid = true ∧ e.rspReady = true then s.rsp.tail else s.rsp } := by
  rw [clockEdge, if_neg (by simp [rst])]
  simp only [Bool.and_eq_true, State.send, State.readBytes, List.drop_one]
  split_ifs <;> rfl

end Sys2Proof.Machine

open Sys2Proof Sys2Proof.Machine

/-- Settles O52: without reset the edge writes only the two streams, and an engine that offers a byte has one, which is the
first of its response stream. -/
theorem clockEdgeTransfersBytes : Obligations.ClockEdgeTransfersBytes := by
  intro e s possible
  obtain ⟨quiet, has⟩ := Edge.possible_iff.mp possible
  refine ⟨fun rst => ⟨clockEdge_of_rst rst, quiet rst⟩, fun rst => ?_⟩
  rw [clockEdge_of_not_rst rst]
  refine ⟨⟨rfl, rfl, rfl, rfl⟩, rfl, fun valid => ?_, fun invalid => by simp [invalid]⟩
  obtain ⟨b, unread, front⟩ := List.exists_cons_of_ne_nil (has valid)
  refine ⟨b, by simp [Edge.rspData, valid, front], ?_⟩
  by_cases ready : e.rspReady = true <;> simp [valid, ready, front]

end

section
/-!
PROOFS. The leaf units and one round (40_word_arithmetic.md R65 to R71; 42_compression.md R82).
-/

namespace Sys2Proof.Machine

/-- R66: the left shift drops the bits that pass bit 31, and the right shift's result is a word already. -/
theorem rotl32_toNat (w : Word) (n : Fin 32) :
    (rotl32 w n).toNat = (w.toNat * 2 ^ n.val ||| w.toNat / 2 ^ (32 - n.val)) % 2 ^ 32 := by
  have high : w.toNat / 2 ^ (32 - n.val) < 2 ^ 32 := (Nat.div_le_self _ _).trans_lt w.isLt
  rw [Nat.or_mod_two_pow, Nat.mod_eq_of_lt high, rotl32, BitVec.toNat_or, BitVec.toNat_shiftLeft,
    BitVec.toNat_ushiftRight, Nat.shiftLeft_eq, Nat.shiftRight_eq_div_pow]

/-- R66: a bit either moves up by `n` or passes bit 31 and re-enters at the bottom. -/
theorem rotl32_getLsbD (w : Word) (n : Fin 32) {j : Nat} (hj : j < 32) :
    (rotl32 w n).getLsbD ((j + n.val) % 32) = w.getLsbD j := by
  have hn := n.isLt
  rw [rotl32_eq_rotateLeft, BitVec.getLsbD_rotateLeft, Nat.mod_eq_of_lt hn]
  by_cases stays : j + n.val < 32
  · have place : (j + n.val) % 32 = j + n.val := Nat.mod_eq_of_lt stays
    simp [place, stays]
  · have place : (j + n.val) % 32 = j + n.val - 32 := by omega
    have wraps : j + n.val - 32 < n.val := by omega
    have source : 32 - n.val + (j + n.val - 32) = j := by omega
    simp [place, wraps, source]

/-- R67 (assumption log 8): at amount 0 the right shift clears the word and the left shift keeps it. -/
@[simp] theorem rotl32_zero (w : Word) : rotl32 w 0 = w := by
  have cleared : w >>> (32 - (0 : Fin 32).val) = 0 := BitVec.ushiftRight_eq_zero (Nat.le_refl 32)
  rw [rotl32, cleared]
  exact BitVec.or_zero.trans (BitVec.shiftLeft_zero w)

/-- R68. -/
theorem not32_toNat (p : Word) : (not32 p).toNat = 0xFFFFFFFF - p.toNat := BitVec.toNat_not

/-- R71: the ranges of `i div 20` by their bounds. -/
theorem roundRange_eq (i : Fin 80) :
    roundRange i =
      if i.val ≤ 19 then .from0to19 else if i.val ≤ 39 then .from20to39
      else if i.val ≤ 59 then .from40to59 else .from60to79 := by
  split_ifs
  · have quotient : i.val / 20 = 0 := by omega
    simp [roundRange, quotient]
  · have quotient : i.val / 20 = 1 := by omega
    simp [roundRange, quotient]
  · have quotient : i.val / 20 = 2 := by omega
    simp [roundRange, quotient]
  · have quotient : i.val / 20 = 3 := by omega
    simp [roundRange, quotient]

/-- R69's table. -/
theorem roundF_eq (i : Fin 80) (b c d : Word) :
    roundF i b c d =
      if i.val ≤ 19 then choose b c d else if i.val ≤ 39 then parity b c d
      else if i.val ≤ 59 then majority b c d else parity b c d := by
  rw [roundF, roundRange_eq]
  split_ifs <;> rfl

/-- R70's table. -/
theorem roundK_eq (i : Fin 80) :
    roundK i =
      if i.val ≤ 19 then 0x5A827999 else if i.val ≤ 39 then 0x6ED9EBA1
      else if i.val ≤ 59 then 0x8F1BBCDC else 0xCA62C1D6 := by
  rw [roundK, roundRange_eq]
  split_ifs <;> rfl

end Sys2Proof.Machine

open Sys2Proof Sys2Proof.Machine

/-- Settles O13: the formula by the two shifts' values, and the bits by whether a bit passes bit 31. -/
theorem rotatorMovesEveryBit : Obligations.RotatorMovesEveryBit :=
  fun w n _ => ⟨rotl32_toNat w n, fun _ hj => rotl32_getLsbD w n hj⟩

/-- Settles O15: `f` and `K` by their tables, and the rotator as the library's left rotation. -/
theorem roundFollowsItsFormula : Obligations.RoundFollowsItsFormula := by
  intro i x v
  rw [roundStep, roundF_eq, roundK_eq, rotl32_eq_rotateLeft, rotl32_eq_rotateLeft]
  rfl

/-- Settles O12: the adder is the addition of 32-bit words. -/
theorem adderWrapsModulo : Obligations.AdderWrapsModulo :=
  fun a b c => ⟨BitVec.toNat_add a b, BitVec.add_zero a, BitVec.add_comm a b, BitVec.add_assoc a b c⟩

/-- Settles O14: the complement's value, and the rotation by 0 as the left shift's half alone. -/
theorem complementAndZeroRotation : Obligations.ComplementAndZeroRotation :=
  fun p => ⟨not32_toNat p, rotl32_zero p⟩

end

section
/-!
PROOFS. The message schedule (41_message_schedule.md R75, R76): its words from the block, and the recurrence of the others.
-/

namespace Sys2Proof.Machine

/-- R8: the four bytes of a word, one by one. -/
theorem slice_four (bs : List Byte) (i : Nat) (inside : i + 4 ≤ bs.length) :
    slice bs i (i + 4) = [bs[i], bs[i + 1], bs[i + 2], bs[i + 3]] := by
  rw [slice, Nat.add_sub_cancel_left, List.drop_eq_getElem_cons, List.drop_eq_getElem_cons, List.drop_eq_getElem_cons,
    List.drop_eq_getElem_cons]
  rfl

/-- R8: the number that four bytes spell. -/
theorem fromBE_four (a b c d : Byte) :
    fromBE [a, b, c, d] = a.toNat * 2 ^ 24 + b.toNat * 2 ^ 16 + c.toNat * 2 ^ 8 + d.toNat := by
  simp only [fromBE, List.foldl_cons, List.foldl_nil]
  omega

/-- R75: a block word is the number that its four bytes spell. -/
theorem expand_toNat_of_lt (blk : Block) {j : Nat} (hj : j < 16) :
    ((expand blk)[j]).toNat = memRead blk (4 * j) 4 := by
  have word : (expand blk)[j] = BitVec.ofNat 32 (memRead blk (4 * j) 4) := by
    rw [expand_getElem, List.getD_eq_getElem?_getD, extendWords_getElem? _ _ _ (by simpa using hj)]
    simp [blockWords, hj]
  have len : (slice blk.bytes (4 * j) (4 * j + 4)).length = 4 := by rw [slice_length, blk.size]; omega
  have fits : memRead blk (4 * j) 4 < 2 ^ 32 := by
    simpa [len, memRead] using fromBE_lt (slice blk.bytes (4 * j) (4 * j + 4))
  rw [word, BitVec.toNat_ofNat, Nat.mod_eq_of_lt fits]

/-- R76: extending the words only appends. -/
theorem prefix_extendWords (n : Nat) (x : List Word) : x <+: extendWords n x := by
  induction n generalizing x with
  | zero => exact List.prefix_rfl
  | succ n ih => exact (List.prefix_append x [nextWord x]).trans (ih _)

/-- R76: every further word is the next word of those before it. -/
theorem extendWords_getElem?_eq_nextWord (n : Nat) (x : List Word) {i : Nat} (lo : x.length ≤ i) (hi : i < x.length + n) :
    (extendWords n x)[i]? = some (nextWord ((extendWords n x).take i)) := by
  induction n generalizing x with
  | zero => omega
  | succ n ih =>
    obtain rfl | later := lo.eq_or_lt
    · have before : (extendWords (n + 1) x).take x.length = x :=
        (List.prefix_iff_eq_take.mp (prefix_extendWords (n + 1) x)).symm
      rw [before, extendWords, extendWords_getElem? _ _ _ (by simp), List.getElem?_concat_length]
    · exact ih _ (by simpa using later) (by simp; omega)

/-- R76: the next word of the first `i` words of a list, by the list's own words. -/
theorem nextWord_take (x : List Word) {i : Nat} (lo : 16 ≤ i) (hi : i ≤ x.length) :
    nextWord (x.take i) =
      rotl32 (x.getD (i - 3) 0 ^^^ x.getD (i - 8) 0 ^^^ x.getD (i - 14) 0 ^^^ x.getD (i - 16) 0) 1 := by
  have earlier (k : Nat) (hk : k < i) : (x.take i).getD k 0 = x.getD k 0 := by
    rw [List.getD_eq_getElem?_getD, List.getElem?_take_of_lt hk, List.getD_eq_getElem?_getD]
  rw [nextWord, List.length_take_of_le hi, earlier _ (by omega), earlier _ (by omega), earlier _ (by omega),
    earlier _ (by omega)]

/-- R76: the recurrence over the whole array. -/
theorem expand_recurrence (blk : Block) {i : Nat} (lo : 16 ≤ i) (hi : i < 80) :
    (expand blk)[i] =
      rotl32 ((expand blk)[i - 3] ^^^ (expand blk)[i - 8] ^^^ (expand blk)[i - 14] ^^^ (expand blk)[i - 16]) 1 := by
  have next := extendWords_getElem?_eq_nextWord 64 (blockWords blk) (i := i) (by simpa) (by simpa)
  rw [nextWord_take _ lo (by simp [extendWords_length]; omega)] at next
  simp only [expand_getElem]
  rw [List.getD_eq_getElem?_getD, next, Option.getD_some]

end Sys2Proof.Machine

open Sys2Proof Sys2Proof.Machine

/-- Settles O16: a block word is the value of its four bytes, and each further word is the next of those before it, which the
later extensions leave as they are. -/
theorem scheduleFollowsRecurrence : Obligations.ScheduleFollowsRecurrence := by
  refine fun blk => ⟨fun j => ?_, fun i lo hi => ?_⟩
  · rw [expand_toNat_of_lt blk j.isLt, memRead, slice_four _ _ (by have := blk.size; omega), fromBE_four]
  · rw [expand_recurrence blk lo hi, rotl32_eq_rotateLeft]
    rfl

end

section
/-!
PROOFS. The 80 rounds as a trace, and the command COMPRESS (42_compression.md R80 to R87).
-/

namespace Sys2Proof.Machine

/-- R80: the working variables after the first `i` rounds over a schedule. -/
def roundsBefore (x : Vector Word 80) (v : Working) (i : Nat) : Working :=
  ((List.finRange 80).take i).foldl (fun v i => roundStep i x[i] v) v

theorem roundsBefore_zero (x : Vector Word 80) (v : Working) : roundsBefore x v 0 = v := rfl

/-- R80: round `i` runs on what the rounds before it leave. -/
theorem roundsBefore_succ (x : Vector Word 80) (v : Working) {i : Nat} (hi : i < 80) :
    roundsBefore x v (i + 1) = roundStep ⟨i, hi⟩ x[i] (roundsBefore x v i) := by
  have last : (List.finRange 80).take (i + 1) = (List.finRange 80).take i ++ [⟨i, hi⟩] := by
    rw [List.take_succ_eq_append_getElem (by simpa), List.getElem_finRange]
    rfl
  rw [roundsBefore, last, List.foldl_append]
  rfl

/-- R80: with all 80 rounds the trace reaches the model's result. -/
theorem roundsBefore_eighty (x : Vector Word 80) (v : Working) : roundsBefore x v 80 = rounds x v := by
  rw [roundsBefore, List.take_of_length_le List.length_finRange.le, rounds]

/-- R80, R83: a block's compression feeds the end of its trace forward. -/
theorem compressBlock_eq_roundsBefore (blk : Block) (s : HashState) :
    compressBlock blk s = feedForward s (roundsBefore (expand blk) (startWorking s) 80) := by
  rw [compressBlock, roundsBefore_eighty]

/-- R86: COMPRESS of a block writes its compression into `H` and responds without data. -/
theorem exec_compress_of_length {p : List Byte} (len : p.length = 64) (s : State) :
    exec (.compress p) s = .next ({ s with h := compressBlock ⟨p, len⟩ s.h }.respond []) := by
  simp only [exec, execCompress, compress_of_length len]

/-- R87: COMPRESS of any other length raises InvalidBlockLength. -/
theorem exec_compress_of_length_ne {p : List Byte} (len : p.length ≠ 64) (s : State) :
    exec (.compress p) s = .next (s.raiseError .invalidBlockLength) := by
  simp only [exec, execCompress, compress_of_length_ne len]

/-- R46: the header bytes of a command packet, then its payload. -/
theorem encode_eq (i : Instr) : encode i = [i.opcode.code, 0x00] ++ be16 i.payload.length ++ i.payload := rfl

end Sys2Proof.Machine

open Sys2Proof Sys2Proof.Machine

/-- Settles O17: the trace is the rounds run so far, over the block's schedule from the chaining value. -/
theorem compressionIsEightyRounds : Obligations.CompressionIsEightyRounds := by
  refine fun block s => ⟨fun len => ?_, fun len => compress_of_length_ne len s⟩
  refine ⟨roundsBefore (expand ⟨block, len⟩) (startWorking s), roundsBefore_zero _ _,
    fun i hi => roundsBefore_succ _ _ hi, ?_⟩
  exact (compress_of_length len s).trans (congrArg Except.ok (compressBlock_eq_roundsBefore ⟨block, len⟩ s))

/-- Settles O6: with 64 bytes COMPRESS is a success that writes `H` alone, with any other length the error entry with
InvalidBlockLength, whose effect is the stated state. -/
theorem compressReplacesChainingValue : Obligations.CompressReplacesChainingValue := by
  refine fun p s => ⟨fun len => ?_, fun len => ?_, fun len => exec_compress_of_length_ne len s⟩
  · rw [encode_eq, Instr.payload, len]
    rfl
  · exact ⟨compressBlock ⟨p, len⟩ s.h, compress_of_length len s.h, exec_compress_of_length len s⟩

end

section
/-!
PROOFS. The accumulator (43_accumulator.md R90 to R95): the commands INIT and UPDATE, the block loop over a sequence that
arrives in parts, and the digest of a message that arrived so (44_finalization.md R104, R106).
-/

namespace Sys2Proof.Machine

variable {s t u : State} {i : Instr}

/-! ## The commands -/

/-- R90: INIT writes the values of a new hasher and responds without data. -/
theorem exec_init_of_length {p : List Byte} (len : p.length = 0) (s : State) :
    exec (.init p) s = .next ({ s with h := iv, buf := [], count := 0 }.respond []) := if_pos len

/-- R90: INIT with a payload raises IllegalCommand. -/
theorem exec_init_of_length_ne {p : List Byte} (len : p.length ≠ 0) (s : State) :
    exec (.init p) s = .next (s.raiseError .illegalCommand) := if_neg len

/-- R92: UPDATE runs the block loop over the buffer and the payload, and responds without data. -/
theorem exec_update (p : List Byte) (s : State) :
    exec (.update p) s = .next ((absorb { s with buf := s.buf ++ p }).respond []) := rfl

/-- R46: the low length byte is the length modulo 256. -/
theorem be16_eq (n : Nat) : be16 n = [BitVec.ofNat 8 (n / 256), BitVec.ofNat 8 (n % 256)] := by
  rw [be16, show BitVec.ofNat 8 (n % 256) = BitVec.ofNat 8 n from BitVec.eq_of_toNat_eq (by simp)]

/-! ## The block loop -/

/-- R92: with less than a block there is no turn. -/
theorem absorb_of_lt (short : s.buf.length < 64) : absorb s = s := by
  rw [absorb, Nat.div_eq_of_lt short, absorbLoop]

/-- R92: with a block or more the loop is its first turn and then the loop again. -/
theorem absorb_of_le (whole : 64 ≤ s.buf.length) :
    absorb s = absorb (absorbBlock s ⟨s.buf.take 64, by simp [whole]⟩) := by
  have turns : s.buf.length / 64 = (s.buf.drop 64).length / 64 + 1 := by rw [List.length_drop]; omega
  rw [absorb, turns, absorbLoop, frontBlock_of_le whole]
  rfl

/-- R93: a sequence is its whole blocks and the bytes left after them; the blocks of a longer one are these blocks, and then
those that the bytes left form with what follows. -/
theorem chunks_append_rest (a b : List Byte) :
    chunks (a ++ b) = chunks a ++ chunks (a.drop (64 * (a.length / 64)) ++ b) := by
  have blocks : (a.take (64 * (a.length / 64))).length % 64 = 0 := by rw [List.length_take]; omega
  have front : chunks (a.take (64 * (a.length / 64))) = chunks a := by
    conv_rhs => rw [← List.take_append_drop (64 * (a.length / 64)) a]
    rw [chunks_append _ _ blocks, chunks_of_lt (bs := a.drop _) (by rw [List.length_drop]; omega), List.append_nil]
  rw [← front, ← chunks_append _ _ blocks, ← List.append_assoc, List.take_append_drop]

/-- R95: absorbing a first part and then the rest is absorbing the whole. -/
theorem absorb_append_absorb (s : State) (p : List Byte) :
    absorb { absorb s with buf := (absorb s).buf ++ p } = absorb { s with buf := s.buf ++ p } := by
  have turns : 64 * (s.buf.length / 64) + 64 * ((s.buf.length % 64 + p.length) / 64) =
      64 * ((s.buf.length + p.length) / 64) := by omega
  have chain : compressBlocks (chunks (s.buf.drop (64 * (s.buf.length / 64)) ++ p)) (compressBlocks (chunks s.buf) s.h) =
      compressBlocks (chunks (s.buf ++ p)) s.h := by
    rw [← compressBlocks_append, ← chunks_append_rest]
  have count : s.count + BitVec.ofNat 64 (64 * (s.buf.length / 64)) +
        BitVec.ofNat 64 (64 * ((s.buf.length % 64 + p.length) / 64)) =
      s.count + BitVec.ofNat 64 (64 * ((s.buf.length + p.length) / 64)) := by
    rw [BitVec.add_assoc, ← BitVec.ofNat_add, turns]
  have left : (s.buf.drop (64 * (s.buf.length / 64)) ++ p).drop (64 * ((s.buf.length % 64 + p.length) / 64)) =
      (s.buf ++ p).drop (64 * ((s.buf.length + p.length) / 64)) := by
    rw [← turns, ← List.drop_drop, List.drop_append_of_le_length (Nat.mul_div_le ..)]
  rw [absorb_eq { absorb s with buf := (absorb s).buf ++ p }, absorb_eq { s with buf := s.buf ++ p }]
  simp only [List.length_append, absorb_buf_length]
  simp only [absorb_h, absorb_buf, absorb_count, absorb_err, absorb_cmd, absorb_rsp, chain, count, left]

/-! ## Chunking -/

theorem State.SameRegs.trans (st : s.SameRegs t) (tu : t.SameRegs u) : s.SameRegs u := by
  obtain ⟨h, buf, count, err⟩ := st
  obtain ⟨h', buf', count', err'⟩ := tu
  exact ⟨h.trans h', buf.trans buf', count.trans count', err.trans err'⟩

/-- R166: absorbing further bytes keeps the agreement of two states' registers. -/
theorem State.SameRegs.absorb_append (same : s.SameRegs t) (p : List Byte) :
    (absorb { s with buf := s.buf ++ p }).SameRegs (absorb { t with buf := t.buf ++ p }) := by
  obtain ⟨h, buf, count, err⟩ := same
  obtain ⟨h', buf', count'⟩ := State.SameData.absorb_append (s := t) (s' := s) ⟨h, buf, count⟩ p
  exact ⟨h', buf', count', by simp only [absorb_err, err]⟩

/-- R38: a sequence of commands is its first command and then the others. -/
theorem execAll_cons_of_exec (is : List Instr) (first : exec i s = .next t) : execAll (i :: is) s = execAll is t := by
  rw [execAll, first]

/-- R94, R39: at rest, the payload of a command that is an UPDATE or a read is what it absorbs. -/
theorem exec_absorbs (s : State) (rest : s.buf.length ≤ 63) (part : (∃ c, i = .update c) ∨ i ∈ readCommands) :
    ∃ t, exec i s = .next t ∧ t.SameRegs (absorb { s with buf := s.buf ++ i.payload }) := by
  obtain ⟨c, rfl⟩ | read := part
  · exact ⟨_, exec_update c s, rfl, rfl, rfl, rfl⟩
  · have empty : i.payload = [] := by
      simp only [readCommands, List.mem_cons, List.not_mem_nil, or_false] at read
      obtain rfl | rfl | rfl := read <;> rfl
    rw [empty, List.append_nil, absorb_of_lt (Nat.lt_succ_of_le rest)]
    exact ⟨_, exec_of_mem_readCommands read s, rfl, rfl, rfl, rfl⟩

/-- R95: UPDATEs with reads between them absorb their payloads' concatenation. -/
theorem execAll_absorbs (is : List Instr) (s : State) (rest : s.buf.length ≤ 63)
    (parts : ∀ i ∈ is, (∃ c, i = .update c) ∨ i ∈ readCommands) :
    ∃ t, execAll is s = .next t ∧ t.SameRegs (absorb { s with buf := s.buf ++ is.flatMap Instr.payload }) := by
  induction is generalizing s with
  | nil =>
    rw [List.flatMap_nil, List.append_nil, absorb_of_lt (Nat.lt_succ_of_le rest)]
    exact ⟨s, rfl, rfl, rfl, rfl, rfl⟩
  | cons i is ih =>
    obtain ⟨part, others⟩ := List.forall_mem_cons.mp parts
    obtain ⟨u, first, regs⟩ := exec_absorbs s rest part
    have rest' : u.buf.length ≤ 63 := by
      obtain ⟨-, buf, -⟩ := regs
      rw [buf, absorb_buf_length]
      omega
    obtain ⟨t, run, same⟩ := ih u rest' others
    refine ⟨t, (execAll_cons_of_exec is first).trans run, ?_⟩
    have whole := same.trans (regs.absorb_append (is.flatMap Instr.payload))
    rwa [absorb_append_absorb, List.append_assoc, ← List.flatMap_cons] at whole

/-! ## The digest of what was absorbed -/

/-- R100, R101: padding makes whole blocks of the bytes counted. -/
theorem pad_length_mod {hb : Nat} (blocks : hb % 64 = 0) (data : List Byte) : (pad hb data).length % 64 = 0 := by
  have ends := zcount_mod (hb + data.length)
  rw [pad_length]
  omega

/-- R104, R106: the block loop does not change what DIGEST reports. A counter that wraps changes no padding, since the padding
depends on the total modulo 2^64 only. -/
theorem finalize_absorb (s : State) : finalize (absorb s) = finalize s := by
  have total : padding ((absorb s).count.toNat + (absorb s).buf.length) = padding (s.count.toNat + s.buf.length) := by
    apply padding_congr
    rw [absorb_buf_length, absorb_count, BitVec.toNat_add, BitVec.toNat_ofNat]
    omega
  rw [finalize, pad, total, absorb_h, absorb_buf, ← compressBlocks_append, ← chunks_append_rest]
  rfl

/-- R106: DIGEST reads `H`, `BUF` and `COUNT` only. -/
theorem State.SameRegs.finalize_eq (same : s.SameRegs t) : finalize s = finalize t := by
  obtain ⟨h, buf, count, -⟩ := same
  exact State.SameData.finalize_eq ⟨h, buf, count⟩

end Sys2Proof.Machine

open Sys2Proof Sys2Proof.Machine

/-- Settles O45: the sequence and the one UPDATE both absorb the concatenated payloads. -/
theorem chunkingDoesNotMatter : Obligations.ChunkingDoesNotMatter := by
  intro is s rest parts
  obtain ⟨t, run, same⟩ := execAll_absorbs is s rest parts
  exact ⟨t, _, run, exec_update _ s, same⟩

/-- Settles O46: the UPDATEs leave the registers of one absorbed message, and DIGEST reports of them what it reports of the
message still unabsorbed: the chain over all of its padding's blocks. -/
theorem streamingDigestIsMerkleDamgard : Obligations.StreamingDigestIsMerkleDamgard := by
  intro cs
  obtain ⟨t, run, same⟩ := execAll_absorbs (cs.map .update) State.reset (Nat.zero_le 63) (by simp)
  have message : (cs.map Instr.update).flatMap Instr.payload = cs.flatten := by
    simp [List.flatMap_map, Instr.payload]
  rw [message] at same
  have digest : finalize t = compressBlocks (chunks (pad 0 cs.flatten)) iv :=
    same.finalize_eq.trans (finalize_absorb _)
  refine ⟨t, t.respond (stateBytes (finalize t)), finalize t, run, rfl, pad_length_mod rfl _, ?_, ?_⟩
  · rw [digest]
    exact foldlM_compress_chunks _ _
  · rw [List.append_assoc]
    rfl

/-- Settles O1: INIT's success and its error, each with its response written out. -/
theorem initConstructsHasher : Obligations.InitConstructsHasher :=
  ⟨rfl, fun _ s => ⟨fun len => exec_init_of_length len s, fun len => exec_init_of_length_ne len s⟩⟩

/-- Settles O2: a short sequence takes no turn of the loop; a longer one takes its first turn, whose compression has a whole
block, and the loop goes on with the rest. -/
theorem updateRunsTheBlockLoop : Obligations.UpdateRunsTheBlockLoop := by
  refine fun p s => ⟨fun _ => ?_, fun short => ?_, fun whole => ?_⟩
  · rw [encode_eq, Instr.payload, be16_eq]
    rfl
  · rw [exec_update, absorb_of_lt short]
    rfl
  · refine ⟨_, compress_take whole s.h, ?_⟩
    rw [exec_update, absorb_of_le whole, exec_update, List.append_nil]
    rfl

/-- Settles O3: UPDATE's effect as one state, whose chain over whole blocks is the chain of checked compressions. -/
theorem updateClosedForm : Obligations.UpdateClosedForm := by
  intro p s b q
  have blocks : b.length / 64 = q := by rw [List.length_append]; rfl
  refine ⟨⟨compressBlocks (chunks b) s.h, ?_, ?_⟩, ?_, fun _ _ => ?_⟩
  · rw [← blocks]
    exact foldlM_compress_chunks b s.h
  · rw [← blocks]
    exact execUpdate_eq p s
  · rw [← blocks, List.length_drop, ← Nat.mod_eq_sub, List.length_append]
    rfl
  · omega

/-- Settles O4: a buffer at rest holds no whole block, so the loop takes no turn. -/
theorem emptyUpdateIsNoOp : Obligations.EmptyUpdateIsNoOp := by
  refine ⟨rfl, fun s rest => ?_⟩
  rw [exec_update, List.append_nil, absorb_of_lt (Nat.lt_succ_of_le rest)]
  rfl

end

section
/-!
PROOFS. The padding finalizer (44_finalization.md R100 to R109): where the parts of a padded sequence stand, the blocks it
has at rest, and the command DIGEST.
-/

namespace Sys2Proof.Machine

/-! ## The count of zero bytes -/

/-- R101: no smaller count ends a block with the length field. -/
theorem zcount_le {total z : Nat} (ends : (total + 1 + z) % 64 = 56) : zcount total ≤ z := by
  rw [zcount]
  omega

/-- R101: the source's form, whose inner difference may be negative. -/
theorem zcount_eq_int (total : Nat) : (zcount total : Int) = (56 - ((total : Int) + 1) % 64) % 64 := by
  rw [zcount]
  omega

/-- R101: the form without subtraction below zero, by whether the length field fits in the block of the last data byte. -/
theorem zcount_eq_ite (total : Nat) :
    zcount total = if total % 64 ≤ 55 then 55 - total % 64 else 119 - total % 64 := by
  rw [zcount]
  split_ifs with fits <;> omega

/-! ## The parts of a padded sequence -/

/-- Numbers that agree modulo 2^64 are the same 64-bit value. -/
theorem dword_ofNat_congr {m n : Nat} (agree : m % 2 ^ 64 = n % 2 ^ 64) : BitVec.ofNat 64 m = BitVec.ofNat 64 n :=
  BitVec.eq_of_toNat_eq (by simpa only [BitVec.toNat_ofNat] using agree)

/-- R100: the data and the marker, the zero bytes, the length field. -/
theorem pad_eq (hb : Nat) (data : List Byte) :
    pad hb data = data ++ [0x80] ++ zeros (zcount (hb + data.length)) ++
      be64 (BitVec.ofNat 64 ((hb + data.length) * 8 % 2 ^ 64)) := by
  rw [pad, padding, dword_ofNat_congr (Nat.mod_mod _ _)]
  simp only [List.append_assoc, List.cons_append, List.nil_append]

/-- R102: the bytes before the padded ones, and these, are whole blocks. -/
theorem add_pad_length_mod (hb : Nat) (data : List Byte) : (hb + (pad hb data).length) % 64 = 0 := by
  have ends := zcount_mod (hb + data.length)
  rw [pad_length]
  omega

/-- R100: the last eight bytes are the length field. -/
theorem pad_drop_field (hb : Nat) (data : List Byte) :
    (pad hb data).drop ((pad hb data).length - 8) = be64 (BitVec.ofNat 64 ((hb + data.length) * 8 % 2 ^ 64)) := by
  rw [pad_eq, List.length_append, be64_length, Nat.add_sub_cancel, List.drop_left]

/-- R102: the marker follows the data. -/
theorem pad_getElem?_marker (hb : Nat) (data : List Byte) : (pad hb data)[data.length]? = some 0x80 := by
  rw [pad, List.getElem?_append_right le_rfl, Nat.sub_self]
  rfl

/-- R102: between the marker and the length field every byte is 0. -/
theorem pad_getElem?_zero (hb : Nat) (data : List Byte) {j : Nat} (after : data.length < j)
    (before : j < (pad hb data).length - 8) : (pad hb data)[j]? = some 0x00 := by
  obtain ⟨i, rfl⟩ := Nat.exists_eq_add_of_lt after
  rw [pad_length] at before
  have inside : i < zcount (hb + data.length) := by omega
  have place : data.length + i + 1 - data.length = i + 1 := by omega
  rw [pad, List.getElem?_append_right (by omega), place, padding, List.getElem?_cons_succ,
    List.getElem?_append_left (by simpa using inside), zeros, List.getElem?_replicate_of_lt inside]

/-! ## The blocks at rest -/

variable {s : State} {hb : Nat} {data : List Byte}

/-- R103: zero bytes of one block and then of the next. -/
theorem zeros_add (m n : Nat) : zeros (m + n) = zeros m ++ zeros n := List.replicate_add ..

/-- R101: with whole blocks before the data, the count depends on the data's length alone. -/
theorem zcount_add_of_mod (blocks : hb % 64 = 0) (n : Nat) : zcount (hb + n) = zcount n :=
  zcount_congr (by omega)

/-- R103: the one block of a short buffer. -/
theorem pad_of_le (blocks : hb % 64 = 0) (short : data.length ≤ 55) :
    pad hb data = data ++ [0x80] ++ zeros (55 - data.length) ++
      be64 (BitVec.ofNat 64 ((hb + data.length) * 8 % 2 ^ 64)) := by
  have count : zcount data.length = 55 - data.length := by rw [zcount]; omega
  rw [pad_eq, zcount_add_of_mod blocks, count]

/-- R103: the two blocks of a long buffer. Its zero bytes fill the marker's block, and 56 begin the next. -/
theorem pad_of_ge (blocks : hb % 64 = 0) (long : 56 ≤ data.length) (rest : data.length ≤ 63) :
    pad hb data = (data ++ [0x80] ++ zeros (63 - data.length)) ++
      (zeros 56 ++ be64 (BitVec.ofNat 64 ((hb + data.length) * 8 % 2 ^ 64))) := by
  have count : zcount data.length = 63 - data.length + 56 := by rw [zcount]; omega
  rw [pad_eq, zcount_add_of_mod blocks, count, zeros_add]
  simp only [List.append_assoc]

/-- R103: the one block of a short buffer is 64 bytes. -/
theorem onlyBlock_length (short : data.length ≤ 55) (field : DWord) :
    (data ++ [0x80] ++ zeros (55 - data.length) ++ be64 field).length = 64 := by
  simp only [List.length_append, List.length_singleton, zeros_length, be64_length]
  omega

/-- R103: the first block of a long buffer is 64 bytes. -/
theorem firstBlock_length (rest : data.length ≤ 63) : (data ++ [0x80] ++ zeros (63 - data.length)).length = 64 := by
  simp only [List.length_append, List.length_singleton, zeros_length]
  omega

/-- R107: a padding of one block is compressed once. -/
theorem compress_eq_finalize {b : List Byte} (len : b.length = 64) (padded : pad s.count.toNat s.buf = b) :
    compress b s.h = .ok (finalize s) := by
  rw [compress_of_length len, finalize, padded, chunks_of_block ⟨b, len⟩]
  rfl

/-- R107: a padding of two blocks is compressed twice, in order. -/
theorem compress_compress_eq_finalize {a b : List Byte} (lenA : a.length = 64) (lenB : b.length = 64)
    (padded : pad s.count.toNat s.buf = a ++ b) :
    ∃ t, compress a s.h = .ok t ∧ compress b t = .ok (finalize s) := by
  refine ⟨_, compress_of_length lenA s.h, ?_⟩
  rw [compress_of_length lenB, finalize, padded, chunks_append a b (by rw [lenA]), chunks_of_block ⟨a, lenA⟩,
    chunks_of_block ⟨b, lenB⟩]
  rfl

/-! ## DIGEST -/

/-- R108: DIGEST reports `finalize` and changes nothing else. -/
theorem exec_digest_of_length {p : List Byte} (len : p.length = 0) (s : State) :
    exec (.digest p) s = .next (s.respond (stateBytes (finalize s))) := if_pos len

/-- R108: DIGEST with a payload raises IllegalCommand. -/
theorem exec_digest_of_length_ne {p : List Byte} (len : p.length ≠ 0) (s : State) :
    exec (.digest p) s = .next (s.raiseError .illegalCommand) := if_neg len

/-- R109: a response changes no register. -/
theorem State.respond_sameRegs (s : State) (d : List Byte) : (s.respond d).SameRegs s := ⟨rfl, rfl, rfl, rfl⟩

end Sys2Proof.Machine

open Sys2Proof Sys2Proof.Machine

/-- Settles O5: the chain over the chunks of the padding is the chain of checked compressions over its slices, and DIGEST's
success and its error are written out. -/
theorem digestReportsFinalization : Obligations.DigestReportsFinalization := by
  refine ⟨rfl, fun p s => ⟨fun blocks => pad_length_mod blocks s.buf, fun len => ?_, fun len => ?_⟩⟩
  · refine ⟨finalize s, foldlM_compress_chunks _ s.h, rfl, ?_⟩
    rw [exec_digest_of_length len]
    simp only [List.append_assoc]
    rfl
  · exact exec_digest_of_length_ne len s

/-- Settles O20: the layout gives the places of the marker, the zeros and the length field, and the count of zeros the length
law. -/
theorem paddingLawHolds : Obligations.PaddingLawHolds := by
  intro hb data total padded
  have blocks : (hb + padded.length) % 64 = 0 := add_pad_length_mod hb data
  have length : padded.length = data.length + 9 + zcount total := pad_length hb data
  refine ⟨pad_eq hb data, by omega, blocks, by omega, ?_, pad_getElem?_marker hb data,
    fun j after before => pad_getElem?_zero hb data after before⟩
  rw [pad_drop_field, fromBE_be64, BitVec.toNat_ofNat, Nat.mod_mod]

/-- Settles O21: at rest the buffer's length gives the count of zeros, and so the one or two blocks that `finalize`
compresses. -/
theorem finalizeRunsOneOrTwoBlocks : Obligations.FinalizeRunsOneOrTwoBlocks := by
  refine fun s blocks rest => ⟨fun short => ?_, fun long => ?_⟩
  · have padded := pad_of_le blocks short
    exact ⟨padded, compress_eq_finalize (onlyBlock_length short _) padded⟩
  · have padded := pad_of_ge blocks long rest
    exact ⟨padded, compress_compress_eq_finalize (firstBlock_length rest) rfl padded⟩

/-- Settles O23: DIGEST only adds its response, and neither `finalize` nor UPDATE reads the response stream. -/
theorem digestIsNonDestructive : Obligations.DigestIsNonDestructive := by
  intro s p
  have again : exec (.digest []) (s.respond (stateBytes (finalize s))) =
      .next ((s.respond (stateBytes (finalize s))).respond (stateBytes (finalize s))) := by
    rw [exec_digest_of_length rfl, (s.respond_sameRegs _).finalize_eq]
  exact ⟨(Response.success (stateBytes (finalize s))).bytes, _, _, _, _, exec_digest_of_length rfl s, rfl, again, rfl,
    exec_update p _, exec_update p s, (s.respond_sameRegs _).absorb_append p⟩

/-- Settles O19: the block's end and the three forms, each by the count's definition. -/
theorem zeroCountIsLeast : Obligations.ZeroCountIsLeast :=
  fun total => ⟨zcount_mod total, fun _ ends => zcount_le ends, zcount_eq_int total, rfl, zcount_eq_ite total⟩

/-- Settles O22: eight times the total modulo 2^64 is eight times its residue modulo 2^61. -/
theorem lengthFieldCountsBits : Obligations.LengthFieldCountsBits := by
  refine ⟨fun hb data => ?_, by decide⟩
  have bits : (hb + data.length) * 8 % 2 ^ 64 = (hb + data.length) % 2 ^ 61 * 8 := by omega
  rw [pad_drop_field, bits]

end

section
/-!
PROOFS. Access to the state (45_state_access.md R115 to R121): what each of the four commands answers, and how they
rebuild on any engine the state that a message of whole blocks leaves.
-/

namespace Sys2Proof.Machine

variable {s : State} {p : List Byte}

/-! ## The counter's operand -/

/-- R117: LDCOUNT's operand is the value its whole payload spells. -/
theorem countOperand_of_length (len : p.length = 8) : countOperand p = BitVec.ofNat 64 (fromBE p) := by
  rw [countOperand, slice_all len]

/-- R117: eight bytes spell a 64-bit value, so the operand's value is theirs. -/
theorem countOperand_toNat (len : p.length = 8) : (countOperand p).toNat = fromBE p := by
  rw [countOperand_of_length len, BitVec.toNat_ofNat, Nat.mod_eq_of_lt (by simpa [len] using fromBE_lt p)]

/-- R34, R117: LDCOUNT reads back the value whose bytes it is given. -/
theorem countOperand_be64 (c : DWord) : countOperand (be64 c) = c :=
  BitVec.eq_of_toNat_eq ((countOperand_toNat (be64_length c)).trans (fromBE_be64 c))

/-! ## The commands -/

/-- R115: LDSTATE writes its five words into `H` and responds without data. -/
theorem exec_ldstate_of_length (len : p.length = 20) (s : State) :
    exec (.ldstate p) s = .next ({ s with h := stateOperand p }.respond []) := if_pos len

/-- R116: LDSTATE of any other length raises InvalidDigestEncoding. -/
theorem exec_ldstate_of_length_ne (len : p.length ≠ 20) (s : State) :
    exec (.ldstate p) s = .next (s.raiseError .invalidDigestEncoding) := if_neg len

/-- R119: LDSTATE of a chaining value's bytes loads that chaining value. -/
theorem exec_ldstate_stateBytes (t : HashState) (s : State) :
    exec (.ldstate (stateBytes t)) s = .next ({ s with h := t }.respond []) := by
  rw [exec_ldstate_of_length (stateBytes_length t), stateOperand_stateBytes]

/-- R117: LDCOUNT of a multiple of 64 writes it into `COUNT` and responds without data. -/
theorem exec_ldcount_of_mod (len : p.length = 8) (blocks : fromBE p % 64 = 0) (s : State) :
    exec (.ldcount p) s = .next ({ s with count := BitVec.ofNat 64 (fromBE p) }.respond []) := by
  rw [← countOperand_of_length len]
  rw [← countOperand_toNat len] at blocks
  exact (if_pos len).trans (if_pos blocks)

/-- R118: LDCOUNT of any other value raises InvalidCount. -/
theorem exec_ldcount_of_mod_ne (len : p.length = 8) (blocks : fromBE p % 64 ≠ 0) (s : State) :
    exec (.ldcount p) s = .next (s.raiseError .invalidCount) := by
  rw [← countOperand_toNat len] at blocks
  exact (if_pos len).trans (if_neg blocks)

/-- R118: LDCOUNT of any other length raises IllegalCommand, whatever its bytes spell. -/
theorem exec_ldcount_of_length_ne (len : p.length ≠ 8) (s : State) :
    exec (.ldcount p) s = .next (s.raiseError .illegalCommand) := if_neg len

/-- R117: LDCOUNT of the bytes of a multiple of 64 loads it. -/
theorem exec_ldcount_be64 {c : DWord} (blocks : c.toNat % 64 = 0) (s : State) :
    exec (.ldcount (be64 c)) s = .next ({ s with count := c }.respond []) := by
  rw [exec_ldcount_of_mod (be64_length c) ((fromBE_be64 c).symm ▸ blocks), ← countOperand_of_length (be64_length c),
    countOperand_be64]

/-- R119: RDSTATE reports `H` and changes nothing else. -/
theorem exec_rdstate_of_length (len : p.length = 0) (s : State) :
    exec (.rdstate p) s = .next (s.respond (stateBytes s.h)) := if_pos len

/-- R119: RDSTATE with a payload raises IllegalCommand. -/
theorem exec_rdstate_of_length_ne (len : p.length ≠ 0) (s : State) :
    exec (.rdstate p) s = .next (s.raiseError .illegalCommand) := if_neg len

/-- R120: RDSTATUS reports `ERR`, `BUFLEN` and `COUNT` and changes nothing else. -/
theorem exec_rdstatus_of_length (len : p.length = 0) (s : State) :
    exec (.rdstatus p) s = .next (s.respond (statusBytes s)) := if_pos len

/-- R120: RDSTATUS with a payload raises IllegalCommand. -/
theorem exec_rdstatus_of_length_ne (len : p.length ≠ 0) (s : State) :
    exec (.rdstatus p) s = .next (s.raiseError .illegalCommand) := if_neg len

/-! ## Resumption -/

/-- R93: whole blocks leave nothing in the buffer, and their length is counted. -/
theorem absorb_of_mod (blocks : s.buf.length % 64 = 0) :
    absorb s = { s with h := compressBlocks (chunks s.buf) s.h, buf := []
                        count := s.count + BitVec.ofNat 64 s.buf.length } := by
  rw [absorb_eq, Nat.mul_div_cancel' (Nat.dvd_of_mod_eq_zero blocks), List.drop_length]

/-- R121: what a message of whole blocks leaves from reset. -/
theorem exec_update_reset_of_mod (blocks : p.length % 64 = 0) :
    exec (.update p) State.reset = .next
      ({ State.reset with h := compressBlocks (chunks p) iv, count := BitVec.ofNat 64 p.length }.respond []) := by
  have counted : BitVec.ofNat 64 p.length = State.reset.count + BitVec.ofNat 64 p.length := (BitVec.zero_add _).symm
  rw [exec_update, absorb_of_mod (s := { State.reset with buf := State.reset.buf ++ p }) blocks, counted]
  rfl

/-- R121: after INIT, the two loads, in either order, leave the loaded values and INIT's empty buffer. -/
theorem execAll_resume {c : DWord} (blocks : c.toNat % 64 = 0) (t : HashState) (s : State) :
    ∃ u v, execAll [.init [], .ldstate (stateBytes t), .ldcount (be64 c)] s = .next u ∧
      execAll [.init [], .ldcount (be64 c), .ldstate (stateBytes t)] s = .next v ∧
      u.SameRegs { s with h := t, buf := [], count := c } ∧ v.SameRegs u := by
  have stateFirst (w : State) := (execAll_cons_of_exec [.ldcount (be64 c)] (exec_ldstate_stateBytes t w)).trans
    (execAll_cons_of_exec [] (exec_ldcount_be64 blocks _))
  have countFirst (w : State) := (execAll_cons_of_exec [.ldstate (stateBytes t)] (exec_ldcount_be64 blocks w)).trans
    (execAll_cons_of_exec [] (exec_ldstate_stateBytes t _))
  have init := exec_init_of_length (p := []) rfl s
  exact ⟨_, _, (execAll_cons_of_exec _ init).trans (stateFirst _),
    (execAll_cons_of_exec _ init).trans (countFirst _), ⟨rfl, rfl, rfl, rfl⟩, rfl, rfl, rfl, rfl⟩

end Sys2Proof.Machine

open Sys2Proof Sys2Proof.Machine

/-- Settles O47: the message leaves an empty buffer and its length, and so do the three commands, with the chaining
value and the counter they are given. -/
theorem resumptionRebuildsTheState : Obligations.ResumptionRebuildsTheState := by
  intro m s blocks _
  have whole : (BitVec.ofNat 64 m.length).toNat % 64 = 0 := by
    rw [BitVec.toNat_ofNat]
    omega
  obtain ⟨b, c, run, swapped, ⟨h, buf, count, -⟩, same⟩ := execAll_resume whole (compressBlocks (chunks m) iv) s
  exact ⟨_, b, c, exec_update_reset_of_mod blocks, rfl, rfl, run, swapped, h, buf, count, same⟩

/-- Settles O7: with 20 bytes LDSTATE is a success that writes `H` alone, with any other length the error entry with
InvalidDigestEncoding. -/
theorem ldstateLoadsFiveWords : Obligations.LdstateLoadsFiveWords := by
  refine fun p s => ⟨fun len => ?_, fun len => exec_ldstate_of_length len s,
    fun len => exec_ldstate_of_length_ne len s⟩
  rw [encode_eq, Instr.payload, len]
  rfl

/-- Settles O8: the length decides first, then the value that the eight bytes spell. -/
theorem ldcountLoadsMultiplesOf64 : Obligations.LdcountLoadsMultiplesOf64 := by
  refine fun p s => ⟨fun len => ?_, fun len blocks => exec_ldcount_of_mod len blocks s,
    fun len blocks => exec_ldcount_of_mod_ne len blocks s, fun len => exec_ldcount_of_length_ne len s⟩
  rw [encode_eq, Instr.payload, len]
  rfl

/-- Settles O9: RDSTATE's success and its error, and LDSTATE of the bytes it reports. -/
theorem rdstateReturnsChainingValue : Obligations.RdstateReturnsChainingValue := by
  refine ⟨rfl, fun p s => ⟨fun len => ?_, fun len => exec_rdstate_of_length_ne len s⟩,
    fun s t => exec_ldstate_stateBytes s.h t⟩
  rw [exec_rdstate_of_length len]
  simp only [List.append_assoc]
  rfl

/-- Settles O10: RDSTATUS's success and its error, each with its response written out. -/
theorem rdstatusReportsRegisters : Obligations.RdstatusReportsRegisters := by
  refine ⟨rfl, fun p s => ⟨fun len => ?_, fun len => exec_rdstatus_of_length_ne len s⟩⟩
  rw [exec_rdstatus_of_length len]
  simp only [List.append_assoc]
  rfl

end

section
/-!
PROOFS. The digest's text (46_host_codec_and_extension.md R125, R126): the hexadecimal digits of a byte sequence, read back
as the words the bytes spell, and the texts that are no digest.
-/

namespace Sys2Proof.Machine

/-! ## Characters and digits -/

/-- R126: the sixteen characters the host writes. -/
abbrev lowercaseDigits : List Char :=
  ['0', '1', '2', '3', '4', '5', '6', '7', '8', '9', 'a', 'b', 'c', 'd', 'e', 'f']

theorem hexDigit_hexChar {v : Nat} (digit : v < 16) : hexDigit (hexChar v) = some v := by
  revert v
  decide

theorem hexChar_mem_lowercaseDigits {v : Nat} (digit : v < 16) : hexChar v ∈ lowercaseDigits := by
  revert v
  decide

/-- R125: the text of digits is read as those digits. -/
theorem hexDigits_map_hexChar {vs : List Nat} (digits : ∀ v ∈ vs, v < 16) : hexDigits (vs.map hexChar) = some vs := by
  induction vs with
  | nil => rfl
  | cons v vs ih =>
    obtain ⟨digit, others⟩ := List.forall_mem_cons.mp digits
    rw [List.map_cons, hexDigits, hexDigit_hexChar digit, ih others]

/-- R125: a text is read as digits exactly when each of its characters is one. -/
theorem isSome_hexDigits_iff (cs : List Char) :
    (hexDigits cs).isSome = true ↔ ∀ c ∈ cs, (hexDigit c).isSome = true := by
  induction cs with
  | nil => simp [hexDigits]
  | cons c cs ih =>
    rw [List.forall_mem_cons, ← ih, hexDigits]
    cases hexDigit c with
    | none => simp
    | some v => cases hexDigits cs <;> simp

/-! ## The digits of bytes -/

/-- R126: the values of the characters of a byte sequence's text, two a byte, the high one first. -/
def byteDigits (d : List Byte) : List Nat := d.flatMap fun b => [b.toNat / 16, b.toNat % 16]

theorem byteDigits_cons (b : Byte) (d : List Byte) :
    byteDigits (b :: d) = b.toNat / 16 :: b.toNat % 16 :: byteDigits d := rfl

theorem hexText_eq (d : List Byte) : hexText d = (byteDigits d).map hexChar := by
  rw [byteDigits, List.map_flatMap]
  rfl

theorem byteDigits_lt (d : List Byte) : ∀ v ∈ byteDigits d, v < 16 := by
  intro v mem
  obtain ⟨b, -, half⟩ := List.mem_flatMap.mp mem
  have byte := b.isLt
  simp only [List.mem_cons, List.not_mem_nil, or_false] at half
  omega

theorem byteDigits_length (d : List Byte) : (byteDigits d).length = 2 * d.length := by
  simp [byteDigits, List.length_flatMap, Nat.mul_comm]

/-- Two digits stand for each byte left out at the front. -/
theorem byteDigits_drop (n : Nat) (d : List Byte) : (byteDigits d).drop (2 * n) = byteDigits (d.drop n) := by
  induction d generalizing n with
  | nil => simp [byteDigits]
  | cons b d ih =>
    cases n with
    | zero => rfl
    | succ n => exact ih n

/-- Two digits stand for each byte kept. -/
theorem byteDigits_take (n : Nat) (d : List Byte) : (byteDigits d).take (2 * n) = byteDigits (d.take n) := by
  induction d generalizing n with
  | nil => simp [byteDigits]
  | cons b d ih =>
    cases n with
    | zero => rfl
    | succ n => exact congrArg (b.toNat / 16 :: b.toNat % 16 :: ·) (ih n)

/-- R125, R33: the digits of bytes spell in base 16 the number that the bytes spell big-endian. -/
theorem hexNumeral_byteDigits (d : List Byte) : hexNumeral (byteDigits d) = fromBE d := by
  have pair (n : Nat) (b : Byte) : (n * 16 + b.toNat / 16) * 16 + b.toNat % 16 = n * 256 + b.toNat := by omega
  simp only [hexNumeral, byteDigits, List.foldl_flatMap, List.foldl_cons, List.foldl_nil, pair]
  rfl

/-- R125: word `k` of a text is word `k` of the bytes it shows. -/
theorem hexWord_byteDigits (d : List Byte) (k : Nat) : hexWord (byteDigits d) k = payloadWord d k := by
  have digits : ((byteDigits d).drop (8 * k)).take 8 = byteDigits (slice d (4 * k) (4 * k + 4)) := by
    rw [show 8 * k = 2 * (4 * k) by omega, byteDigits_drop, byteDigits_take 4, slice, Nat.add_sub_cancel_left]
  rw [hexWord, digits, hexNumeral_byteDigits, payloadWord]

/-! ## The digest's text -/

theorem hexText_length (d : List Byte) : (hexText d).length = 2 * d.length := by
  rw [hexText_eq, List.length_map, byteDigits_length]

theorem mem_lowercaseDigits_of_mem_hexText {d : List Byte} {c : Char} (mem : c ∈ hexText d) : c ∈ lowercaseDigits := by
  rw [hexText_eq] at mem
  obtain ⟨v, digit, rfl⟩ := List.mem_map.mp mem
  exact hexChar_mem_lowercaseDigits (byteDigits_lt d v digit)

/-- R125, R115: the text of 20 bytes is read as the five words LDSTATE reads in the bytes. -/
theorem stateFromHex_hexText {d : List Byte} (len : d.length = 20) : stateFromHex (hexText d) = .ok (stateOperand d) := by
  have chars : (hexText d).length = 40 := by rw [hexText_length, len]
  rw [stateFromHex, if_pos chars, hexText_eq, hexDigits_map_hexChar (byteDigits_lt d)]
  simp only [hexWord_byteDigits]
  rfl

/-- R125, R126: a digest's text is read back as the digest. -/
theorem stateFromHex_hexText_stateBytes (t : HashState) : stateFromHex (hexText (stateBytes t)) = .ok t := by
  rw [stateFromHex_hexText (stateBytes_length t), stateOperand_stateBytes]

/-- R125: 40 hexadecimal digits are five words. -/
theorem stateFromHex_of_digits {cs : List Char} (len : cs.length = 40)
    (digits : ∀ c ∈ cs, (hexDigit c).isSome = true) : ∃ t, stateFromHex cs = .ok t := by
  obtain ⟨vs, read⟩ := Option.isSome_iff_exists.mp ((isSome_hexDigits_iff cs).mpr digits)
  rw [stateFromHex, if_pos len, read]
  exact ⟨_, rfl⟩

/-- R125: any other text is refused, for its length or for a character that is no digit. -/
theorem stateFromHex_of_not_digits {cs : List Char}
    (bad : ¬ (cs.length = 40 ∧ ∀ c ∈ cs, (hexDigit c).isSome = true)) :
    stateFromHex cs = .error .invalidDigestEncoding := by
  rw [← isSome_hexDigits_iff, not_and_or, Bool.not_eq_true, Option.isSome_eq_false_iff, Option.isNone_iff_eq_none] at bad
  obtain length | unread := bad
  · exact if_neg length
  · rw [stateFromHex, unread, ite_self]

end Sys2Proof.Machine

open Sys2Proof Sys2Proof.Machine

/-- Settles O50: the text is the map of the bytes' digits, whose numerals are the words; a text is refused for its length or
for a character that is no digit. -/
theorem digestTextRoundTrip : Obligations.DigestTextRoundTrip :=
  ⟨fun w => ⟨stateFromHex_hexText_stateBytes w, by rw [hexText_length, stateBytes_length],
      fun _ => mem_lowercaseDigits_of_mem_hexText⟩,
    fun _ => ⟨fun ⟨len, digits⟩ => stateFromHex_of_digits len digits, stateFromHex_of_not_digits⟩⟩

end

section
/-!
PROOFS. The host drives an engine at rest (46_host_codec_and_extension.md R127, R129): what an issued command and an issued
sequence of commands leave, and the hash that INIT, UPDATE and DIGEST compute.
-/

namespace Sys2Proof.Machine

variable {s t u : State} {i : Instr} {d : List Byte}

/-! ## Issued commands -/

/-- R50: a command's successful form is what its execution answers. -/
theorem Success.exec_eq (hu : Success s i u d) : exec i s = .next (u.respond d) := by
  cases hu with
  | compress blk => simp only [exec, execCompress, compress_of_length blk.size]
  | ldstate p len => exact if_pos len
  | ldcount p len mult => exact (if_pos len).trans (if_pos mult)
  | init | update | digest | rdstate | rdstatus => rfl

/-- R154: a command that succeeds on an engine at rest gives the host its data and leaves its registers written, and the
engine at rest. -/
theorem Success.issueAll_eq (hu : Success s i u d) (idle : s.Idle) (fits : i.fits = true) :
    issueAll [i] s = .ok (d, u) ∧ u.Idle := by
  obtain ⟨answer, rest⟩ := issue_of_success idle fits hu.exec_eq hu
  obtain ⟨-, rsp⟩ := idle
  have unread : u.rsp = [] := hu.rsp.trans rsp
  rw [← unread] at answer rest
  exact ⟨answer, rest⟩

/-- R38: a sequence that completes is issued, and then the commands after it. -/
theorem issueAll_append {is js : List Instr} (first : issueAll is s = .ok (d, t)) (more : js ≠ []) :
    issueAll (is ++ js) s = issueAll js t := by
  induction is generalizing s with
  | nil =>
    cases first
    rfl
  | cons i is ih =>
    obtain ⟨j, js, rfl⟩ := List.exists_cons_of_ne_nil more
    cases is with
    | nil =>
      rw [List.singleton_append, issueAll_cons, show issue i s = .ok (d, t) from first]
    | cons i' is =>
      rw [issueAll_cons] at first
      rw [List.cons_append, List.cons_append, issueAll_cons]
      cases answer : issue i s with
      | error e =>
        rw [answer] at first
        cases first
      | ok r =>
        rw [answer] at first
        exact ih first

/-- A command is issued, and then the commands after it. -/
theorem issueAll_cons_of_issueAll {js : List Instr} (first : issueAll [i] s = .ok (d, t)) (more : js ≠ []) :
    issueAll (i :: js) s = issueAll js t := issueAll_append first more

/-! ## UPDATE of a message of any length -/

/-- R92: what a message leaves in the registers, once the engine has taken it. -/
def State.absorbed (s : State) (m : List Byte) : State := absorb { s with buf := s.buf ++ m }

theorem State.absorbed_idle (idle : s.Idle) (m : List Byte) : (s.absorbed m).Idle := by
  obtain ⟨cmd, rsp⟩ := idle
  exact ⟨(absorb_cmd _).trans cmd, (absorb_rsp _).trans rsp⟩

theorem State.absorbed_absorbed (s : State) (p q : List Byte) : (s.absorbed p).absorbed q = s.absorbed (p ++ q) := by
  rw [State.absorbed, State.absorbed, absorb_append_absorb, State.absorbed, List.append_assoc]

/-- R95: the pieces of a message, issued one by one, are absorbed as the message. -/
theorem issueAll_updates {ps : List (List Byte)} (idle : s.Idle) (rest : s.buf.length ≤ 63)
    (fits : ∀ p ∈ ps, p.length ≤ 65535) : issueAll (ps.map .update) s = .ok ([], s.absorbed ps.flatten) := by
  induction ps generalizing s with
  | nil =>
    rw [List.flatten_nil, State.absorbed, List.append_nil, absorb_of_lt (Nat.lt_succ_of_le rest)]
    rfl
  | cons p ps ih =>
    obtain ⟨fit, others⟩ := List.forall_mem_cons.mp fits
    obtain ⟨first, idle'⟩ := (Success.update (s := s) p).issueAll_eq idle (decide_eq_true fit)
    have rest' : (s.absorbed p).buf.length ≤ 63 := by
      rw [State.absorbed, absorb_buf_length]
      omega
    have tail := ih (State.absorbed_idle idle p) rest' others
    rw [State.absorbed_absorbed, ← List.flatten_cons] at tail
    cases ps with
    | nil => simpa [State.absorbed] using first
    | cons q qs => exact (issueAll_cons_of_issueAll first (by simp)).trans tail

/-- R57, R96: `UPDATE m` absorbs the message, however it is cut. -/
theorem issueAll_updateCommands (m : List Byte) (idle : s.Idle) (rest : s.buf.length ≤ 63) :
    issueAll (updateCommands m) s = .ok ([], s.absorbed m) := by
  have pieces : (messagePieces m).flatten = m := cutMessage_flatten _ m
  have run := issueAll_updates idle rest (length_of_mem_cutMessage (m.length / 65535) m (by omega))
  rwa [← messagePieces, pieces] at run

/-- R57: there is at least one piece. -/
theorem updateCommands_ne_nil (m : List Byte) : updateCommands m ≠ [] :=
  fun none => cutMessage_ne_nil _ m (List.map_eq_nil_iff.mp none)

/-! ## The hash -/

/-- R106: the Merkle-Damgard hash of a message: the chain of compressions from `IV` over the blocks of its padding. -/
def messageHash (m : List Byte) : HashState := compressBlocks (chunks (pad 0 m)) iv

/-- R106: with an empty buffer, DIGEST of an absorbed message is the chain over the blocks of its padding, the bytes before it
counted, from the chaining value before it. -/
theorem finalize_absorbed (empty : s.buf = []) (m : List Byte) :
    finalize (s.absorbed m) = compressBlocks (chunks (pad s.count.toNat m)) s.h := by
  rw [State.absorbed, finalize_absorb, empty]
  rfl

/-- R127: the host's hash of a message completes on an engine at rest, whatever its history. -/
theorem hostHash_eq (m : List Byte) (idle : s.Idle) :
    ∃ t, hostHash m s = .ok (stateBytes (messageHash m), t) ∧ t.Idle := by
  obtain ⟨init, idle⟩ := Success.init.issueAll_eq idle rfl
  have update := issueAll_updateCommands m idle (Nat.zero_le 63)
  obtain ⟨digest, idle⟩ := Success.digest.issueAll_eq (State.absorbed_idle idle m) rfl
  rw [finalize_absorbed rfl] at digest
  refine ⟨_, ?_, idle⟩
  rw [hostHash, hashCommands, issueAll_cons_of_issueAll init (by simp), issueAll_append update (by simp), digest]
  rfl

end Sys2Proof.Machine

open Sys2Proof Sys2Proof.Machine

/-- Settles O48: INIT, the UPDATEs and DIGEST each succeed, and the chain over the padding's blocks is the chain of checked
compressions over its slices. -/
theorem hostHashIsTheDigest : Obligations.HostHashIsTheDigest := by
  intro m s idle
  obtain ⟨t, run, rest⟩ := hostHash_eq m idle
  exact ⟨messageHash m, t, run, rest, foldlM_compress_chunks _ _⟩

end

section
/-!
PROOFS. Length extension (46_host_codec_and_extension.md R129 to R131): the engine resumed from a known digest, and the
message whose hash it then computes.
-/

namespace Sys2Proof.Machine

variable {s : State} {c : Nat}

/-- R100: the padding proper is what `pad` puts after its data. -/
theorem pad_drop_data (hb : Nat) (data : List Byte) : (pad hb data).drop data.length = padding (hb + data.length) :=
  List.drop_left

/-- R100: the front of the data is counted before the rest, and left as it is. -/
theorem pad_append (hb : Nat) (a b : List Byte) : pad hb (a ++ b) = a ++ pad (hb + a.length) b := by
  rw [pad, pad, List.length_append, List.append_assoc, Nat.add_assoc]

/-- R130: the hash of a padded message with an appendix is the chain over the appendix's padding, the padded message's bytes
counted, from the message's own hash. -/
theorem messageHash_pad_append (m a : List Byte) :
    messageHash (pad 0 m ++ a) = compressBlocks (chunks (pad (pad 0 m).length a)) (messageHash m) := by
  rw [messageHash, pad_append, Nat.zero_add, chunks_append _ _ (pad_length_mod rfl m), compressBlocks_append, messageHash]

/-- R129, R121: the engine that continues from a loaded chaining value, `c` bytes counted and none waiting. -/
def State.resumed (s : State) (w : HashState) (c : Nat) : State :=
  { s with h := w, buf := [], count := BitVec.ofNat 64 c }

/-- R129: INIT, LDSTATE, LDCOUNT and UPDATE leave the appendix absorbed by the resumed engine. -/
theorem issueAll_extendCommands (blocks : c % 64 = 0) (below : c < 2 ^ 64) (w : HashState) (a : List Byte)
    (idle : s.Idle) : issueAll (extendCommands w c a) s = .ok ([], (s.resumed w c).absorbed a) := by
  have mult : (countOperand (be64 (BitVec.ofNat 64 c))).toNat % 64 = 0 := by
    rw [countOperand_be64, BitVec.toNat_ofNat, Nat.mod_eq_of_lt below, blocks]
  obtain ⟨init, idle⟩ := Success.init.issueAll_eq idle rfl
  obtain ⟨state, idle⟩ := (Success.ldstate _ (stateBytes_length w)).issueAll_eq idle rfl
  obtain ⟨count, idle⟩ := (Success.ldcount _ (be64_length _) mult).issueAll_eq idle rfl
  rw [extendCommands, issueAll_cons_of_issueAll init (by simp), issueAll_cons_of_issueAll state (by simp),
    issueAll_cons_of_issueAll count (updateCommands_ne_nil a), issueAll_updateCommands a idle (Nat.zero_le 63),
    stateOperand_stateBytes, countOperand_be64, State.resumed]

/-- R129: what the resumed engine's DIGEST then reports. -/
theorem finalize_resumed_absorbed (below : c < 2 ^ 64) (s : State) (w : HashState) (a : List Byte) :
    finalize ((s.resumed w c).absorbed a) = compressBlocks (chunks (pad c a)) w := by
  have counter : (s.resumed w c).count.toNat = c := (BitVec.toNat_ofNat ..).trans (Nat.mod_eq_of_lt below)
  rw [finalize_absorbed rfl, counter, State.resumed]

/-- R126: the host's hexdigest of an engine at rest. -/
theorem hostHexdigest_eq (idle : s.Idle) : hostHexdigest s = .ok (hexText (stateBytes (finalize s)), s) := by
  have digest : issue (.digest []) s = .ok (stateBytes (finalize s), s) := (Success.digest.issueAll_eq idle rfl).1
  rw [hostHexdigest, digest]

/-- R129: `extend` of a digest's text completes on an engine at rest, with the chain over the appendix's padding from the
digest. -/
theorem hostExtend_eq (w : HashState) (known a : List Byte) (n : Nat) (counter : n + (pad n known).length = c)
    (below : c < 2 ^ 64) (idle : s.Idle) :
    hostExtend (hexText (stateBytes w)) known a n s =
      .ok ((hexText (stateBytes (compressBlocks (chunks (pad c a)) w)), padding (n + known.length) ++ a),
        (s.resumed w c).absorbed a) := by
  have blocks : c % 64 = 0 := counter ▸ add_pad_length_mod n known
  have run := issueAll_extendCommands blocks below w a idle
  have digest := hostHexdigest_eq (State.absorbed_idle (s := s.resumed w c) idle a)
  simp only [hostExtend, stateFromHex_hexText_stateBytes, counter, if_pos below, run, digest, pad_drop_data,
    finalize_resumed_absorbed below]

end Sys2Proof.Machine

open Sys2Proof Sys2Proof.Machine

/-- Settles O49: the secret, the suffix and the padding proper are the padded message whose digest is known, so the engine
resumed from that digest computes the hash of the message the suffix makes. -/
theorem lengthExtensionForges : Obligations.LengthExtensionForges := by
  intro secret known appendix d s1 s2 s3 t1 idle1 idle2 idle3 below hashed
  obtain ⟨t, run, -⟩ := hostHash_eq (secret ++ known) idle1
  obtain ⟨rfl, -⟩ : stateBytes (messageHash (secret ++ known)) = d ∧ t = t1 := by simpa using run.symm.trans hashed
  have counter : secret.length + (pad secret.length known).length = (pad 0 (secret ++ known)).length := by
    simp only [pad_length, Nat.zero_add, List.length_append, Nat.add_assoc]
  have extend := hostExtend_eq (messageHash (secret ++ known)) known appendix secret.length counter (counter ▸ below) idle2
  obtain ⟨t3, forged, -⟩ := hostHash_eq (pad 0 (secret ++ known) ++ appendix) idle3
  have message : pad 0 (secret ++ known) ++ appendix =
      secret ++ known ++ (padding (secret.length + known.length) ++ appendix) := by
    rw [pad, Nat.zero_add, List.length_append, List.append_assoc]
  rw [messageHash_pad_append, message] at forged
  exact ⟨_, _, _, t3, extend, rfl, forged⟩

end

section
/-!
PROOFS. Exceptions and reset: which check decides a packet's status (60_exceptions.md R141; 30_encoding.md R49), the error
entry (R140), independent engines (R153), rest and parts of packets (R151; 70_reset_and_hazards.md R165), INIT beside reset
(R157).
-/

namespace Sys2Proof

/-- R47: an `OPC` of 1 to 8 is the code of a command. -/
theorem Opcode.exists_eq_code {b : Byte} (assigned : ¬(b.toNat = 0 ∨ 8 < b.toNat)) : ∃ op : Opcode, b = op.code := by
  have low : 1 ≤ b.toNat := by omega
  have high : b.toNat ≤ 8 := by omega
  have selects : (Opcode.ofByte b).isSome = true := by
    unfold Opcode.ofByte
    interval_cases b.toNat <;> rfl
  obtain ⟨op, selected⟩ := Option.isSome_iff_exists.mp selects
  exact ⟨op, Opcode.ofByte_eq_some selected⟩

end Sys2Proof

namespace Sys2Proof.Machine

variable {s : State} {p : Packet} {k : ErrorKind}

/-! ## The status of a packet -/

/-- R49: a packet with a zero `RSV` and a command's `OPC` is executed as that command. -/
theorem execPacket_of_code {op : Opcode} (opc : p.opc = op.code) (rsv : p.rsv = 0x00) (s : State) :
    execPacket p s = exec (op.instr p.payload) s := by
  rw [execPacket, (decodePacket_eq_ok_iff p op).mpr ⟨opc, rsv⟩]

/-- R49 step 5: a command whose payload has a legal length, and for LDCOUNT a legal value, succeeds. -/
theorem exists_success_of_legal (op : Opcode) {bs : List Byte} (s : State) (len : op.legalLen bs.length = true)
    (value : op = .ldcount → fromBE bs % 64 = 0) : ∃ u d, Success s (op.instr bs) u d := by
  cases op with
  | update => exact ⟨_, _, .update bs⟩
  | compress => exact ⟨_, _, .compress ⟨bs, eq_of_beq len⟩⟩
  | ldstate => exact ⟨_, _, .ldstate bs (eq_of_beq len)⟩
  | ldcount =>
    have size : bs.length = 8 := eq_of_beq len
    exact ⟨_, _, .ldcount bs size (by rw [countOperand_toNat size, value rfl])⟩
  | init | digest | rdstate | rdstatus =>
    obtain rfl := List.eq_nil_of_length_eq_zero (eq_of_beq len)
    exact ⟨_, _, by constructor⟩

/-- R50: the execution of a packet sends one response, of status `c`. -/
def AnswersStatus (p : Packet) (s : State) (c : Byte) : Prop :=
  ∃ (t : State) (r : Response), execPacket p s = .next t ∧ t.rsp = s.rsp ++ r.bytes ∧ r.status = c

/-- R140 (4): a packet that raises an error is answered with its code. -/
theorem answersStatus_of_raiseError (raised : execPacket p s = .next (s.raiseError k)) : AnswersStatus p s k.code :=
  ⟨_, .failure k, raised, rfl, rfl⟩

/-- R49 step 3: a length that the command's row does not allow is answered with the row's LEN error. -/
theorem answersStatus_illegalLen {op : Opcode} (fits : p.fits = true) (opc : p.opc = op.code) (rsv : p.rsv = 0x00)
    (illegal : op.legalLen p.payload.length = false) : AnswersStatus p s op.lenError.code :=
  answersStatus_of_raiseError <|
    (execPacket_of_code opc rsv s).trans (exec_illegalLen op s (of_decide_eq_true fits) illegal).2

/-- R49 step 4: a value that LDCOUNT does not allow is answered with InvalidCount. -/
theorem answersStatus_illegalValue (opc : p.opc = Opcode.ldcount.code) (rsv : p.rsv = 0x00)
    (len : p.payload.length = 8) (illegal : fromBE p.payload % 64 ≠ 0) : AnswersStatus p s 0x04 :=
  answersStatus_of_raiseError (k := .invalidCount) <|
    (execPacket_of_code opc rsv s).trans (exec_ldcount_of_mod_ne len illegal s)

/-- R49 step 5: a packet that passes every check is answered with success. -/
theorem answersStatus_legal {op : Opcode} (opc : p.opc = op.code) (rsv : p.rsv = 0x00)
    (len : op.legalLen p.payload.length = true) (value : op = .ldcount → fromBE p.payload % 64 = 0) :
    AnswersStatus p s 0x00 := by
  obtain ⟨u, d, success⟩ := exists_success_of_legal op s len value
  refine ⟨_, .success d, (execPacket_of_code opc rsv s).trans success.exec_eq, ?_, rfl⟩
  rw [State.respond_rsp, success.rsp]

/-- R49 steps 3 to 5, R141: the status of a packet that selects a command: its length is checked first, then LDCOUNT's
value. -/
theorem answersStatus_of_code {op : Opcode} (fits : p.fits = true) (opc : p.opc = op.code) (rsv : p.rsv = 0x00) :
    AnswersStatus p s
      (if op.legalLen p.payload.length = false then op.lenError.code
        else if op = .ldcount ∧ fromBE p.payload % 64 ≠ 0 then 0x04 else 0x00) := by
  split_ifs with len value
  · exact answersStatus_illegalLen fits opc rsv len
  · obtain ⟨rfl, value⟩ := value
    exact answersStatus_illegalValue opc rsv (eq_of_beq (eq_true_of_ne_false len)) value
  · exact answersStatus_legal opc rsv (eq_true_of_ne_false len) fun ldcount => by simpa [ldcount] using value

/-! ## Several engines -/

/-- R153: an event that answers a next list is one of an engine that does not exist, or what it makes of its own engine. -/
theorem Engines.apply_cases {es fs : Engines} {n : Nat} {e : Event} (applied : es.apply n e = .next fs) :
    (es[n]? = none ∧ fs = es) ∨ ∃ s t, es[n]? = some s ∧ applyEvent e s = .next t ∧ fs = es.set n t := by
  unfold Engines.apply at applied
  split at applied
  · next missing =>
    cases applied
    exact .inl ⟨missing, rfl⟩
  · next s found =>
    split at applied
    · next t answered =>
      cases applied
      exact .inr ⟨s, t, found, answered, rfl⟩
    · cases applied
    · cases applied

end Sys2Proof.Machine

open Sys2Proof Sys2Proof.Machine

/-- Settles O33: the reserved byte and the opcode are checked by the decoder. A packet that passes both selects a command,
and for each command the statement's other lines are its row's legal length and, for LDCOUNT, its value. -/
theorem firstFailingCheckDecides : Obligations.FirstFailingCheckDecides := by
  intro p rest s fits front
  rw [step_of_packet p rest s fits front]
  change AnswersStatus p { s with cmd := rest } _
  by_cases rsv : p.rsv = 0x00
  · rw [if_neg (not_not_intro rsv)]
    by_cases unassigned : p.opc.toNat = 0 ∨ 8 < p.opc.toNat
    · rw [if_pos unassigned]
      exact answersStatus_of_raiseError (execPacket_unassigned (Opcode.ofByte_none unassigned) _)
    · rw [if_neg unassigned]
      obtain ⟨op, opc⟩ := Opcode.exists_eq_code unassigned
      have status := answersStatus_of_code (s := { s with cmd := rest }) fits opc rsv
      have short : p.payload.length ≤ 65535 := of_decide_eq_true fits
      cases op <;> simpa [opc, Opcode.code, Opcode.legalLen, Opcode.lenError, ErrorKind.code, short] using status
  · rw [if_pos rsv]
    exact answersStatus_of_raiseError (execPacket_reserved rsv _)

/-- Settles O35: the packet raises an error, whose whole effect is the error entry's, or it is the successful form of its
command, which sends its data and does not write `ERR`. -/
theorem eachPacketIsAnsweredOnce : Obligations.EachPacketIsAnsweredOnce := by
  intro p rest s fits front
  rw [step_of_packet p rest s fits front]
  obtain ⟨k, raised⟩ | ⟨i, u, d, -, done, success⟩ := execPacket_cases p { s with cmd := rest }
  · exact ⟨_, .failure k, raised, rfl, rfl, Nat.zero_le _, k.code_le, fun ok => absurd ok k.code_ne_zero,
      fun _ => ⟨rfl, rfl⟩⟩
  · refine ⟨_, .success d, done, success.cmd, ?_, success.data_length, Nat.zero_le _, fun _ => success.err, absurd rfl⟩
    rw [State.respond_rsp, success.rsp, Response.bytes]

/-- Settles O51: the next list is the old one, with at most position `k` written. -/
theorem enginesAreIndependent : Obligations.EnginesAreIndependent := by
  intro es fs k e applied
  obtain ⟨missing, rfl⟩ | ⟨s, t, found, answered, rfl⟩ := Engines.apply_cases applied
  · exact ⟨rfl, fun _ _ => rfl, fun s found => by simp [missing] at found⟩
  · refine ⟨List.length_set, fun j other => List.getElem?_set_ne other.symm, fun s' found' => ?_⟩
    obtain rfl : s = s' := Option.some.inj (found.symm.trans found')
    obtain ⟨inside, -⟩ := List.getElem?_eq_some_iff.mp found
    exact ⟨t, answered, List.getElem?_set_self inside⟩

/-- Settles O11: an error and a success are both next states, and neither writes the command stream. -/
theorem everyCommandAnswersNext : Obligations.EveryCommandAnswersNext := by
  intro i s
  obtain ⟨k, raised⟩ | ⟨u, d, done, success⟩ := exec_cases i s
  · exact ⟨_, raised, rfl⟩
  · exact ⟨_, done, success.cmd⟩

/-- Settles O36: nothing frames as no packet, and a part of a packet as one whose header or payload is incomplete. -/
theorem restAndIncompletePackets : Obligations.RestAndIncompletePackets := by
  refine ⟨step_of_nil, fun p n s fits pos short front => ?_⟩
  obtain framed | framed := framePacket_take p n fits pos short <;> simp only [step, stepStream, front, framed]

/-- Settles O39: INIT writes the values of a new hasher, which are reset's, and neither `ERR` nor the command stream. -/
theorem resetAndInitDifferInTwoThings : Obligations.ResetAndInitDifferInTwoThings :=
  fun s => ⟨_, exec_init_of_length rfl s, rfl, rfl, rfl, rfl, rfl, rfl, rfl, rfl⟩

end
